-- ==== Sys2Proof/Word.lean ====
section
/-! DEFINITION. The block's data types: bytes and 64-bit values (R9, R41), the names of the control states (R14, R19), the
error kinds (R111), and the words a host drives on the ports (R65, R66). -/

namespace Sys2Proof

/-- A byte of a stream: `u8` (00_scope.md section 6). Only its numeric value matters (R39). -/
abbrev Byte := BitVec 8

/-- A 64-bit value: `u64`, or the pattern of an `i64` (R9, 42_signed_mapping.md). -/
abbrev Word := BitVec 64

/-- A count register of 4 bits: `u4` (R13). -/
abbrev Count := BitVec 4

/-- The control states of DEC (R14). -/
inductive DecState where
  | notStarted | awaitingTail | ready | failed
  deriving DecidableEq, Repr, Inhabited

/-- The control states of ENC (R19). Code 3 is never written and has no constructor (U12). -/
inductive EncState where
  | idle | emit | fault
  deriving DecidableEq, Repr, Inhabited

/-- The four error kinds (R111). -/
inductive ErrorKind where
  | tooFewBytes | valueTooLarge | invalidRange | notReady
  deriving DecidableEq, Repr

/-- One operation-level request on one port: the command vectors of R66 with their data, written leftmost bit first (so `rst`
is the most significant bit), the operand of a stateless function (R70, R105, R106), or a span of the wire format (R50). -/
inductive Request where
  | rst (rst : Bool)
  | dec (vector : BitVec 3) (byte : Byte)
  | rd (decRd : Bool)
  | enc (vector : BitVec 5) (value : Word)
  | size (value : Word)
  | toUnsigned (x : Word)
  | toSigned (u : Word)
  | wire (span : List Byte)
  deriving DecidableEq, Repr

/-- The input signals of the port binding, as sampled at one rising edge (R65). -/
structure PortIn where
  rst : Bool := false
  encClr : Bool := false
  encLoad : Bool := false
  encValue : Word := 0
  encOutReady : Bool := false
  encOutFull : Bool := false
  decClr : Bool := false
  decInValid : Bool := false
  decInByte : Byte := 0
  decRd : Bool := false
  deriving DecidableEq, Repr

/-- What a host does next (R6): it requests one operation, it goes on with a DEC.FEED of the bytes `span` (R91), one DEC.ACCEPT a step
(R5), or it drives the whole port binding for one clock edge (R65). -/
inductive HostAction where
  | request (r : Request)
  | feed (span : List Byte)
  | edge (p : PortIn)
  deriving DecidableEq, Repr

end Sys2Proof
end

