-- ==== Sys2Proof/Config.lean ====
section
/-! DEFINITION. The implementation parameters (R8), all fixed by the spec, and the free values: constants without a body for what
the spec calls unspecified (R65, R80, R132), so that a claim holds whatever they are. -/

namespace Sys2Proof.Config

/-- BASE = 248 = 0xF8 (R8): the smallest first byte that is a header. -/
def base : Byte := 0xF8

/-- BASE as a 64-bit number (R9). -/
def baseWord : Word := 248

/-- MAX = 2^64 - 1 - BASE (R8): the largest tail that has a value (R55). -/
def maxTail : Word := 0xFFFFFFFFFFFFFF07

/-- MAX_LEN = 9 bytes (R8). -/
def maxLen : Nat := 9

/-- FREE VALUE (R65, U10): what `dec_value_q` shows when `dec_done` is 0, for each draw. -/
opaque decValueQ : Nat → Word

/-- FREE VALUE (R80, U10): what `enc_out_byte` shows when `enc_out_valid` is 0, for each draw. -/
opaque encOutByte : Nat → Byte

/-- FREE VALUES (R132, U9): the state elements of DEC before the first RESET. -/
opaque powerUpDec : DecState × Count × Word × Word

/-- FREE VALUES (R132, U9): the state elements of ENC before the first RESET. -/
opaque powerUpEnc : EncState × Count × Count × Word

/-- FREE VALUES (log entry 7): dec_err and enc_err before the first RESET, of which the spec states nothing. -/
opaque powerUpErr : Bool × Bool

end Sys2Proof.Config
end

