-- ==== Sys2Proof/Syntax.lean ====
section
/-! DEFINITION. The instructions: one constructor per row of spec/opcode_table.json, the eleven operations of R62 and the
thirteen first-byte patterns of R53, each wire-format row carrying its encoding's data. -/

namespace Sys2Proof

inductive Instr where
  /-- RESET (R130). -/
  | reset
  /-- DEC.RESET (R86). -/
  | decReset
  /-- DEC.ACCEPT b (R85). -/
  | decAccept (b : Byte)
  /-- DEC.VALUE (R87). -/
  | decValue
  /-- ENC.RESET (R74). -/
  | encReset
  /-- ENC.LOAD v (R71). -/
  | encLoad (v : Word)
  /-- ENC.FULL (R73). -/
  | encFull
  /-- ENC.EMIT (R72). -/
  | encEmit
  /-- ENC.SIZE v (R70). -/
  | encSize (v : Word)
  /-- SGN.TOU x (R105). -/
  | sgnTou (x : Word)
  /-- SGN.TOS u (R106). -/
  | sgnTos (u : Word)
  /-- W1, first byte 0vvvvvvv; the operand is the whole byte (R51, R53). -/
  | w1_0vvvvvvv (v : Byte)
  /-- W1, first byte 10vvvvvv (R51, R53). -/
  | w1_10vvvvvv (v : Byte)
  /-- W1, first byte 110vvvvv (R51, R53). -/
  | w1_110vvvvv (v : Byte)
  /-- W1, first byte 1110vvvv (R51, R53). -/
  | w1_1110vvvv (v : Byte)
  /-- W1, first byte 11110vvv (R51, R53). -/
  | w1_11110vvv (v : Byte)
  /-- W2, header 0xF8 and a tail of 1 byte (R52). -/
  | w2 (t : BitVec 8)
  /-- W3, header 0xF9 and a tail of 2 bytes (R52). -/
  | w3 (t : BitVec 16)
  /-- W4, header 0xFA and a tail of 3 bytes (R52). -/
  | w4 (t : BitVec 24)
  /-- W5, header 0xFB and a tail of 4 bytes (R52). -/
  | w5 (t : BitVec 32)
  /-- W6, header 0xFC and a tail of 5 bytes (R52). -/
  | w6 (t : BitVec 40)
  /-- W7, header 0xFD and a tail of 6 bytes (R52). -/
  | w7 (t : BitVec 48)
  /-- W8, header 0xFE and a tail of 7 bytes (R52). -/
  | w8 (t : BitVec 56)
  /-- W9, header 0xFF and a tail of 8 bytes (R52). -/
  | w9 (t : BitVec 64)
  deriving DecidableEq, Repr

end Sys2Proof
end

