-- ==== Sys2Proof/WellFormed.lean ====
section
/-! DEFINITION. Well-formed instructions: the operand of a W1 row is the whole byte, so it must match the row's pattern (R53). Every
other operand is legal at every value: `u64`, `u8` and tail operands have no forbidden value (R60, R70, R85). -/

namespace Sys2Proof

/-- A first byte has the bits `pattern` under `mask` (the rows of R53). -/
def Byte.hasPattern (mask pattern b : BitVec 8) : Bool := b &&& mask == pattern

/-- The check an instruction's operands must pass. -/
def Instr.wellFormed : Instr → Bool
  | .reset => true
  | .decReset => true
  | .decAccept _ => true
  | .decValue => true
  | .encReset => true
  | .encLoad _ => true
  | .encFull => true
  | .encEmit => true
  | .encSize _ => true
  | .sgnTou _ => true
  | .sgnTos _ => true
  | .w1_0vvvvvvv v => Byte.hasPattern 0x80 0x00 v
  | .w1_10vvvvvv v => Byte.hasPattern 0xC0 0x80 v
  | .w1_110vvvvv v => Byte.hasPattern 0xE0 0xC0 v
  | .w1_1110vvvv v => Byte.hasPattern 0xF0 0xE0 v
  | .w1_11110vvv v => Byte.hasPattern 0xF8 0xF0 v
  | .w2 _ => true
  | .w3 _ => true
  | .w4 _ => true
  | .w5 _ => true
  | .w6 _ => true
  | .w7 _ => true
  | .w8 _ => true
  | .w9 _ => true

end Sys2Proof
end

