-- ==== Sys2Proof/Decode.lean ====
section
/-! DEFINITION. From a host's request to the instruction it asks for (R62, R66, R53), the wire format's byte assembly (R52 to R56), and
the encoder back. The decoder is total and rejects by name. -/

namespace Sys2Proof

/-! ## Byte order of the wire format (R39, R54, R56) -/

/-- The `k` tail bytes of `t` in stream order, most significant first: bit offsets 8(k-1) down to 0 (R52, R56). -/
def tailBytes {w : Nat} : Nat → BitVec w → List Byte
  | 0, _ => []
  | k + 1, t => (t >>> (8 * k)).setWidth 8 :: tailBytes k t

/-- The unsigned number that bytes in stream order spell, first byte most significant (R54). -/
def bigEndian (s : List Byte) : Nat := s.foldl (fun acc b => acc * 256 + b.toNat) 0

/-- `tailLen` of a header byte, 1 to 8: its three low bits plus one (R53). -/
def tailLen (b : Byte) : Nat := (b.extractLsb' 0 3).toNat + 1

/-- The total length of an encoding, told from its first byte alone (R50, R53). -/
def wireLength (b : Byte) : Nat := if b < Config.base then 1 else 1 + tailLen b

/-- The encoding with `k` tail bytes spelling `t`: header `0xF8 + (N - 2)` with `N = k + 1`, then the tail (R52). -/
def headed {w : Nat} (k : Nat) (t : BitVec w) : List Byte :=
  (Config.base + BitVec.ofNat 8 (k - 1)) :: tailBytes k t

/-- The bytes a wire-format row stands for, in stream order (R51, R52); none for an operation. -/
def Instr.span : Instr → List Byte
  | .reset => []
  | .decReset => []
  | .decAccept _ => []
  | .decValue => []
  | .encReset => []
  | .encLoad _ => []
  | .encFull => []
  | .encEmit => []
  | .encSize _ => []
  | .sgnTou _ => []
  | .sgnTos _ => []
  | .w1_0vvvvvvv v => [v]
  | .w1_10vvvvvv v => [v]
  | .w1_110vvvvv v => [v]
  | .w1_1110vvvv v => [v]
  | .w1_11110vvv v => [v]
  | .w2 t => headed 1 t
  | .w3 t => headed 2 t
  | .w4 t => headed 3 t
  | .w5 t => headed 4 t
  | .w6 t => headed 5 t
  | .w7 t => headed 6 t
  | .w8 t => headed 7 t
  | .w9 t => headed 8 t

/-! ## The decoder -/

/-- Why a request asks for no instruction. -/
inductive NoRequest where
  /-- Every strobe of the command vector is 0 (R66: `000`, `00x00`). -/
  | idleVector
  /-- The span holds no byte. -/
  | emptySpan
  deriving DecidableEq, Repr

/-- What a request decodes to: an instruction and the bytes of the span after it, or a rejection by name. -/
inductive Decoded where
  | op (i : Instr) (rest : List Byte)
  | reject (why : NoRequest)
  deriving DecidableEq, Repr

/-- The DEC command vector {rst, dec_clr, dec_in_valid} and dec_in_byte (R66): `1xx`, `01x`, `001 bbbbbbbb`, `000`. -/
def decodeDec (vector : BitVec 3) (b : Byte) : Decoded :=
  if vector.getLsbD 2 then .op .reset []
  else if vector.getLsbD 1 then .op .decReset []
  else if vector.getLsbD 0 then .op (.decAccept b) []
  else .reject .idleVector

/-- The ENC command vector {rst, enc_clr, enc_load, enc_out_full, enc_out_ready} and enc_value (R66). The patterns of ENC.LOAD,
ENC.FULL and ENC.EMIT overlap and the state of ENC decides: in EMIT a full or ready strobe goes before enc_load. A vector whose
only strobes are not accepted in this state still names its operation, which then answers NotAccepted (R75). -/
def decodeEnc (st : EncState) (vector : BitVec 5) (v : Word) : Decoded :=
  let load := vector.getLsbD 2
  let full := vector.getLsbD 1
  let ready := vector.getLsbD 0
  if vector.getLsbD 4 then .op .reset []
  else if vector.getLsbD 3 then .op .encReset []
  else if load && !(decide (st = .emit) && (full || ready)) then .op (.encLoad v) []
  else if full then .op .encFull []
  else if ready then .op .encEmit []
  else .reject .idleVector

/-- The W1 row of a first byte below 0xF8 (R53). -/
def decodeW1 (b : Byte) : Instr :=
  if Byte.hasPattern 0x80 0x00 b then .w1_0vvvvvvv b
  else if Byte.hasPattern 0xC0 0x80 b then .w1_10vvvvvv b
  else if Byte.hasPattern 0xE0 0xC0 b then .w1_110vvvvv b
  else if Byte.hasPattern 0xF0 0xE0 b then .w1_1110vvvv b
  else .w1_11110vvv b

/-- The row of a header with `k` tail bytes that spell `t` (R52). -/
def decodeHeaded (k t : Nat) : Instr :=
  if k = 1 then .w2 (BitVec.ofNat 8 t)
  else if k = 2 then .w3 (BitVec.ofNat 16 t)
  else if k = 3 then .w4 (BitVec.ofNat 24 t)
  else if k = 4 then .w5 (BitVec.ofNat 32 t)
  else if k = 5 then .w6 (BitVec.ofNat 40 t)
  else if k = 6 then .w7 (BitVec.ofNat 48 t)
  else if k = 7 then .w8 (BitVec.ofNat 56 t)
  else .w9 (BitVec.ofNat 64 t)

/-- A span of the wire format: the encoding it starts with (R50, R53, R61) and the bytes after it. A span that ends before the
encoding does has no row; its first byte goes to DEC by itself (R91). -/
def decodeWire : List Byte → Decoded
  | [] => .reject .emptySpan
  | b :: bs =>
    if b < Config.base then .op (decodeW1 b) bs
    else if bs.length < tailLen b then .op (.decAccept b) bs
    else .op (decodeHeaded (tailLen b) (bigEndian (bs.take (tailLen b)))) (bs.drop (tailLen b))

/-- The instruction a request asks for, with ENC in state `st` (R66). -/
def decode (st : EncState) : Request → Decoded
  | .rst r => if r then .op .reset [] else .reject .idleVector
  | .dec vector b => decodeDec vector b
  | .rd r => if r then .op .decValue [] else .reject .idleVector
  | .enc vector v => decodeEnc st vector v
  | .size v => .op (.encSize v) []
  | .toUnsigned x => .op (.sgnTou x) []
  | .toSigned u => .op (.sgnTos u) []
  | .wire span => decodeWire span

/-! ## The encoder -/

/-- The request that asks for an instruction: its command pattern of R66 with every don't-care bit 0, or its bytes (R52). -/
def encode : Instr → Request
  | .reset => .rst true
  | .decReset => .dec 0b010 0
  | .decAccept b => .dec 0b001 b
  | .decValue => .rd true
  | .encReset => .enc 0b01000 0
  | .encLoad v => .enc 0b00100 v
  | .encFull => .enc 0b00010 0
  | .encEmit => .enc 0b00001 0
  | .encSize v => .size v
  | .sgnTou x => .toUnsigned x
  | .sgnTos u => .toSigned u
  | .w1_0vvvvvvv v => .wire (Instr.span (.w1_0vvvvvvv v))
  | .w1_10vvvvvv v => .wire (Instr.span (.w1_10vvvvvv v))
  | .w1_110vvvvv v => .wire (Instr.span (.w1_110vvvvv v))
  | .w1_1110vvvv v => .wire (Instr.span (.w1_1110vvvv v))
  | .w1_11110vvv v => .wire (Instr.span (.w1_11110vvv v))
  | .w2 t => .wire (Instr.span (.w2 t))
  | .w3 t => .wire (Instr.span (.w3 t))
  | .w4 t => .wire (Instr.span (.w4 t))
  | .w5 t => .wire (Instr.span (.w5 t))
  | .w6 t => .wire (Instr.span (.w6 t))
  | .w7 t => .wire (Instr.span (.w7 t))
  | .w8 t => .wire (Instr.span (.w8 t))
  | .w9 t => .wire (Instr.span (.w9 t))

/-! ## The opcode table's words -/

/-- The `n` bytes of a word in stream order, byte 0 in its lowest 8 bits, as the table numbers a wire-format row. -/
def streamBytes : Nat → Nat → List Byte
  | 0, _ => []
  | n + 1, w => BitVec.ofNat 8 w :: streamBytes n (w / 256)

/-- The request an untagged word of opcode_table.json stands for. The table's formats are words of different ports and coincide as
numbers; they are tried in the table's order, so that `1` is RESET before DEC.VALUE and ENC.EMIT, `01x` DEC.RESET before
ENC.FULL, and 64 bits are ENC.SIZE's operand before SGN's (DESIGN CHOICE, log entry 4). Every other word is the wire format, byte 0
lowest. -/
def tableRequest (nbits w : Nat) : Request :=
  if nbits ≤ 8 ∧ w = 1 then .rst true
  else if nbits ≤ 8 ∧ w / 2 = 1 then .dec (BitVec.ofNat 3 w) 0
  else if nbits = 16 ∧ w / 256 = 1 then .dec (BitVec.ofNat 3 (w / 256)) (BitVec.ofNat 8 w)
  else if nbits ≤ 8 ∧ w / 8 = 1 then .enc (BitVec.ofNat 5 w) 0
  else if (nbits ≤ 8 ∨ nbits = 72) ∧ w % 256 / 4 = 1 then .enc (BitVec.ofNat 5 (w % 256)) (BitVec.ofNat 64 (w / 256))
  else if nbits = 64 ∧ w % 256 ≠ 0xFE then .size (BitVec.ofNat 64 w)
  else .wire (streamBytes (wireLength (BitVec.ofNat 8 w)) w)

/-- The instruction the decoder reads from a table word, with ENC as it is right after reset. -/
def decodeTableWord (nbits w : Nat) : Option Instr :=
  match decode .idle (tableRequest nbits w) with
  | .op i _ => some i
  | .reject _ => none

end Sys2Proof
end

