-- ==== Sys2Proof/Machine/State.lean ====
section
/-! DEFINITION. The machine's state as plain data (R13), the outcomes of an operation (R7), and the state right after RESET (R34). -/

namespace Sys2Proof.Machine

/-- The state of one DEC (R13 to R17). -/
structure Dec where
  state : DecState := .notStarted
  remaining : Count := 0
  acc : Word := 0
  value : Word := 0
  deriving DecidableEq, Repr

/-- The state of one ENC (R13, R19 to R22). -/
structure Enc where
  state : EncState := .idle
  size : Count := 0
  left : Count := 0
  body : Word := 0
  deriving DecidableEq, Repr

/-- The results an operation gives with Ok (R62). -/
inductive Result where
  | none
  | size (n : Nat)
  | byte (b : Byte) (last : Bool)
  | done (d : Bool)
  | value (v : Word)
  | unsigned (u : Word)
  | signed (x : Word)
  deriving DecidableEq, Repr

/-- The three outcomes of an operation (R7). -/
inductive OpOutcome where
  | ok (r : Result)
  | err (k : ErrorKind)
  | notAccepted
  deriving DecidableEq, Repr

/-- The whole state. `dec` and `enc` are the eight state elements of R13; the other fields are registers of the port binding,
records and the model's own bookkeeping, as each says. -/
structure State where
  /-- The four elements of DEC (R13). -/
  dec : Dec := {}
  /-- The four elements of ENC (R13). -/
  enc : Enc := {}
  /-- dec_err of the port binding: the pulse of ValueTooLarge (R65, R119). -/
  decErr : Bool := false
  /-- enc_err of the port binding: the pulse of ENC.FULL (R65, R119). -/
  encErr : Bool := false
  /-- DEC_IN (R36): the record of the bytes DEC accepted, first byte first. -/
  decIn : List Byte := []
  /-- ENC_OUT (R37): the record of the bytes ENC emitted, first byte first. -/
  encOut : List Byte := []
  /-- The outcome of the last operation (R7). -/
  outcome : OpOutcome := .ok .none
  /-- Whether RESET has been applied since power-up (R132, R133). -/
  resetDone : Bool := true
  /-- The host's actions still to come, next one first (R6). -/
  host : List HostAction := []
  /-- How many draws of the free output values have been made (R65, R80). -/
  draw : Nat := 0
  deriving DecidableEq, Repr

/-- Why the machine stops. An error of the spec is no fault: it is a next state (R119). -/
inductive Fault where
  /-- An operation of the block before the first RESET (R132: no behaviour before it), raised by `State.operate` for an operation or a
  step of a feed and by `State.perform` for a pseudo-operation. Safe: the model stops where the spec gives nothing. -/
  | beforeFirstReset
  deriving DecidableEq, Repr

/-- Why a use has no meaning. -/
inductive Refusal where
  /-- An instruction without a meaning; raised by `exec` alone, and by no arm of this model. Safe. -/
  | notModelled (mnemonic : String)
  /-- Two drivers on one unit in one turn (R46, U5: refused), raised by `Bank.turn`. Safe. -/
  | concurrentUse
  /-- An instance that does not exist, raised by `Bank.issue` (R33). Safe. -/
  | noSuchInstance
  deriving DecidableEq, Repr

/-- The machine right after RESET: every state element zero (R34, R131), the streams empty (R131), the outcome RESET's own. -/
def State.reset : State :=
  { dec := { state := .notStarted, remaining := 0, acc := 0, value := 0 }
    enc := { state := .idle, size := 0, left := 0, body := 0 }
    decErr := false
    encErr := false
    decIn := []
    encOut := []
    outcome := .ok .none
    resetDone := true
    host := []
    draw := 0 }

/-- A machine after power-up and before the first RESET: every state element unspecified (R132, U9), `host` to come. The spec states
nothing of the other fields there. DESIGN CHOICE: dec_err and enc_err are free values too (log entry 7); no operation has run, and the
recorded outcome is Ok without a result (log entry 2); the streams are empty, and the first RESET starts them anew (log entry 5); no
free output has been drawn (log entry 6). -/
def State.powerUp (host : List HostAction) : State :=
  { dec := { state := Config.powerUpDec.1, remaining := Config.powerUpDec.2.1, acc := Config.powerUpDec.2.2.1,
             value := Config.powerUpDec.2.2.2 }
    enc := { state := Config.powerUpEnc.1, size := Config.powerUpEnc.2.1, left := Config.powerUpEnc.2.2.1,
             body := Config.powerUpEnc.2.2.2 }
    decErr := Config.powerUpErr.1
    encErr := Config.powerUpErr.2
    decIn := []
    encOut := []
    outcome := .ok .none
    resetDone := false
    host := host
    draw := 0 }

end Sys2Proof.Machine
end

