-- ==== Sys2Proof/Machine/Ops.lean ====
section
/-! DEFINITION. The named operations over the state: writing a unit, the two streams, answering, raising an error (R119), the resets
that leave an error (R121), and the bookkeeping of a step. -/

namespace Sys2Proof.Machine

/-! ## Answering and writing -/

/-- Answer an operation with its outcome (R7). -/
def State.answer (o : OpOutcome) (s : State) : State := { s with outcome := o }

/-- Write the elements of DEC. -/
def State.setDec (d : Dec) (s : State) : State := { s with dec := d }

/-- Write the elements of ENC. -/
def State.setEnc (e : Enc) (s : State) : State := { s with enc := e }

/-- The byte `b` of an accepted DEC.ACCEPT joins DEC_IN (R36). -/
def State.takeIn (b : Byte) (s : State) : State := { s with decIn := s.decIn ++ [b] }

/-- `Emit(b)`: the byte joins ENC_OUT (R37). -/
def State.emitOut (b : Byte) (s : State) : State := { s with encOut := s.encOut ++ [b] }

/-- An operation of the block: it has an effect only after the first RESET (R132, R133). -/
def State.operate (f : State → State) (s : State) : Host.Outcome State Fault Refusal :=
  if s.resetDone then .next (f s) else .fault .beforeFirstReset

/-! ## Error entry (R119) and exit (R121) -/

/-- The state change of an error of the block and its Err outcome (R119): ValueTooLarge puts DEC in FAILED and pulses dec_err,
TooFewBytes puts ENC in FAULT and pulses enc_err, the other two change nothing. -/
def State.raise (k : ErrorKind) (s : State) : State :=
  match k with
  | .valueTooLarge => { s with dec := { s.dec with state := .failed }, decErr := true, outcome := .err .valueTooLarge }
  | .tooFewBytes => { s with enc := { s.enc with state := .fault }, encErr := true, outcome := .err .tooFewBytes }
  | .notReady => { s with outcome := .err .notReady }
  | .invalidRange => { s with outcome := .err .invalidRange }

/-- The four DEC elements take their reset values and the error pulse ends (R86, R34). -/
def State.clearDec (s : State) : State :=
  { s with dec := { state := .notStarted, remaining := 0, acc := 0, value := 0 }, decErr := false }

/-- The four ENC elements take their reset values and the error pulse ends (R74, R34). -/
def State.clearEnc (s : State) : State :=
  { s with enc := { state := .idle, size := 0, left := 0, body := 0 }, encErr := false }

/-- The first RESET starts the two streams empty; a later one erases nothing (R131). -/
def State.startStreams (s : State) : State :=
  if s.resetDone then s else { s with decIn := [], encOut := [], resetDone := true }

/-! ## The bookkeeping of a step -/

/-- What every step begins with: the error pulses of the step before end (R65), and the unspecified outputs may change (R80). -/
def State.newCycle (s : State) : State := { s with decErr := false, encErr := false, draw := s.draw + 1 }

/-- What the host does later: the bytes of a span not yet looked at, if there are any, then the actions after it. -/
def State.later (rest : List Byte) (actions : List HostAction) (s : State) : State :=
  { s with host := if rest.isEmpty then actions else .request (.wire rest) :: actions }

end Sys2Proof.Machine
end

