-- ==== Sys2Proof/Machine/Operands.lean ====
section
/-! DEFINITION. The values operations compute: the length selector (R70), the number bytes are cut from (R22), the next byte of a
loaded value (R72), the accumulator's update (R54) and the signed mapping (R105, R106). -/

namespace Sys2Proof.Machine

/-- The smallest `N` from `n` on with `t ≤ 2^(8(N-1)) - 1`, among the next `k` (R70). -/
def smallestSize (t : Nat) : Nat → Nat → Nat
  | 0, n => n
  | k + 1, n => if t ≤ 2 ^ (8 * (n - 1)) - 1 then n else smallestSize t k (n + 1)

/-- `EncodedSize(v)`, 1 to 9 (R70). The comparison is on `v - 248`, which does not wrap (R10, C7). -/
def encodedSize (v : Word) : Nat :=
  if v < Config.baseWord then 1 else smallestSize (v - Config.baseWord).toNat 7 2

/-- The number the bytes of `v` are cut from: `v` itself below 248, `v - 248` otherwise (R22, R71). -/
def encodedBody (v : Word) : Word :=
  if v < Config.baseWord then v else v - Config.baseWord

/-- The byte that the next ENC.EMIT returns (R72): the single byte or header when no byte is out yet, a tail byte afterwards.
In a state no run reaches (`left` = 0) the shift amount is 0 (DESIGN CHOICE, log entry 8). -/
def Enc.nextByte (e : Enc) : Byte :=
  if e.left = e.size then
    if e.size = 1 then e.body.setWidth 8 else Config.base + (e.size.setWidth 8 - 2)
  else (e.body >>> (8 * (e.left.toNat - 1))).setWidth 8

/-- Whether the next byte is the last of the value (R72, R80). -/
def Enc.atLast (e : Enc) : Bool := e.left == 1

/-- The accumulator with one more byte, modulo 2^64 (R54, R85, R9). -/
def accumulate (acc : Word) (b : Byte) : Word := acc * 256 + b.setWidth 64

/-- `SGN.TOU`: shift left by one, and complement if the sign bit was set (R105). -/
def toUnsigned (x : Word) : Word := if x.getLsbD 63 then ~~~(x <<< 1) else x <<< 1

/-- `SGN.TOS`: shift right by one, and complement if bit 0 was set (R106). -/
def toSigned (u : Word) : Word := if u.getLsbD 0 then ~~~(u >>> 1) else u >>> 1

end Sys2Proof.Machine
end

