-- ==== Sys2Proof/Machine/Flags.lean ====
section
/-! DEFINITION. The codes of control states and errors, and the status outputs: pure functions of the state (R24, R25, R80). -/

namespace Sys2Proof

/-- The 2-bit code of a DEC control state (R13, R14). -/
def DecState.code : DecState → BitVec 2
  | .notStarted => 0 | .awaitingTail => 1 | .ready => 2 | .failed => 3

/-- The 2-bit code of an ENC control state (R13, R19). -/
def EncState.code : EncState → BitVec 2
  | .idle => 0 | .emit => 1 | .fault => 2

/-- The 3-bit cause code of an error kind; 0 is no error (R111). -/
def ErrorKind.code : ErrorKind → BitVec 3
  | .tooFewBytes => 1 | .valueTooLarge => 2 | .invalidRange => 3 | .notReady => 4

end Sys2Proof

namespace Sys2Proof.Machine

/-- dec_in_ready: DEC.ACCEPT is accepted (R24). -/
def Dec.inReady (d : Dec) : Bool := d.state == .notStarted || d.state == .awaitingTail

/-- dec_done (R24). -/
def Dec.done (d : Dec) : Bool := d.state == .ready

/-- dec_fault: the terminal overflow error is standing (R24). -/
def Dec.faulted (d : Dec) : Bool := d.state == .failed

/-- dec_cause (R24): 2 in FAILED, else 0. -/
def Dec.cause (d : Dec) : BitVec 3 := if d.faulted then ErrorKind.valueTooLarge.code else 0

/-- enc_idle: ENC.LOAD is accepted (R25). -/
def Enc.isIdle (e : Enc) : Bool := e.state == .idle

/-- enc_out_valid: a byte is offered (R25). -/
def Enc.outValid (e : Enc) : Bool := e.state == .emit

/-- enc_out_last (R25, R80). -/
def Enc.outLast (e : Enc) : Bool := e.outValid && e.atLast

/-- enc_fault: the terminal TooFewBytes error is standing (R25). -/
def Enc.faulted (e : Enc) : Bool := e.state == .fault

/-- enc_cause (R25): 1 in FAULT, else 0. -/
def Enc.cause (e : Enc) : BitVec 3 := if e.faulted then ErrorKind.tooFewBytes.code else 0

/-- The status of a bulk pseudo-operation (R64, R91). -/
inductive FeedStatus where
  | done | notDone | failed
  deriving DecidableEq, Repr

/-- The status a bulk pseudo-operation reports, from the control state it ends in (R91). -/
def Dec.status (d : Dec) : FeedStatus :=
  match d.state with
  | .ready => .done
  | .failed => .failed
  | .notStarted => .notDone
  | .awaitingTail => .notDone

end Sys2Proof.Machine
end

