-- ==== Sys2Proof/Machine/Encoder.lean ====
section
/-! DEFINITION. The operations of ENC: ENC.SIZE (R70), ENC.LOAD (R71), ENC.EMIT (R72), ENC.FULL (R73), ENC.RESET (R74), and
NotAccepted outside their state (R75). -/

namespace Sys2Proof.Machine

/-- ENC.SIZE v (R70): it reads and writes no state element. -/
def encSize (v : Word) (s : State) : State := s.answer (.ok (.size (encodedSize v)))

/-- ENC.LOAD v (R71). -/
def encLoad (v : Word) (s : State) : State :=
  match s.enc.state with
  | .idle =>
    let n := BitVec.ofNat 4 (encodedSize v)
    (s.setEnc { state := .emit, size := n, left := n, body := encodedBody v }).answer (.ok .none)
  | .emit => s.answer .notAccepted
  | .fault => s.answer .notAccepted

/-- ENC.EMIT (R72): the byte joins ENC_OUT, and after the last one ENC is idle. -/
def encEmit (s : State) : State :=
  match s.enc.state with
  | .emit =>
    let b := s.enc.nextByte
    let left := s.enc.left - 1
    let next := if left = 0 then EncState.idle else .emit
    ((s.emitOut b).setEnc { s.enc with left := left, state := next }).answer (.ok (.byte b (left == 0)))
  | .idle => s.answer .notAccepted
  | .fault => s.answer .notAccepted

/-- ENC.FULL (R73): the offered byte is not emitted. -/
def encFull (s : State) : State :=
  match s.enc.state with
  | .emit => s.raise .tooFewBytes
  | .idle => s.answer .notAccepted
  | .fault => s.answer .notAccepted

/-- ENC.RESET (R74). -/
def encReset (s : State) : State := s.clearEnc.answer (.ok .none)

/-- ENC.SIZE v (R70). -/
def execEncSize (v : Word) (s : State) : Host.Outcome State Fault Refusal := s.operate (encSize v)

/-- ENC.LOAD v (R71). -/
def execEncLoad (v : Word) (s : State) : Host.Outcome State Fault Refusal := s.operate (encLoad v)

/-- ENC.EMIT (R72). -/
def execEncEmit (s : State) : Host.Outcome State Fault Refusal := s.operate encEmit

/-- ENC.FULL (R73). -/
def execEncFull (s : State) : Host.Outcome State Fault Refusal := s.operate encFull

/-- ENC.RESET (R74). -/
def execEncReset (s : State) : Host.Outcome State Fault Refusal := s.operate encReset

end Sys2Proof.Machine
end

