-- ==== Sys2Proof/Machine/Reset.lean ====
section
/-! DEFINITION. RESET (R130). -/

namespace Sys2Proof.Machine

/-- RESET: both units to their reset values, in any state, the unspecified power-up state included (R130, R34). -/
def blockReset (s : State) : State := s.startStreams.clearDec.clearEnc.answer (.ok .none)

/-- RESET (R130). -/
def execReset (s : State) : Host.Outcome State Fault Refusal := .next (blockReset s)

end Sys2Proof.Machine
end

