-- ==== Sys2Proof/Machine/Signed.lean ====
section
/-! DEFINITION. The signed mapping (R105 to R107): stateless functions outside ENC and DEC (R109), so they need no RESET before them. -/

namespace Sys2Proof.Machine

/-- The answer of SGN.TOU x (R105). -/
def sgnTou (x : Word) (s : State) : State := s.answer (.ok (.unsigned (toUnsigned x)))

/-- The answer of SGN.TOS u (R106). -/
def sgnTos (u : Word) (s : State) : State := s.answer (.ok (.signed (toSigned u)))

/-- SGN.TOU x (R105). -/
def execSgnTou (x : Word) (s : State) : Host.Outcome State Fault Refusal := .next (sgnTou x s)

/-- SGN.TOS u (R106). -/
def execSgnTos (u : Word) (s : State) : Host.Outcome State Fault Refusal := .next (sgnTos u s)

end Sys2Proof.Machine
end

