-- ==== Sys2Proof/Machine/Decoder.lean ====
section
/-! DEFINITION. The operations of DEC: DEC.ACCEPT (R85, R88), DEC.RESET (R86), DEC.VALUE (R87). -/

namespace Sys2Proof.Machine

/-- DEC.ACCEPT from NOT_STARTED (R85, first block): a single byte completes a value, a header announces its tail. -/
def acceptFirst (b : Byte) (s : State) : State :=
  if b < Config.base then
    (s.setDec { s.dec with value := b.setWidth 64, state := .ready }).answer (.ok (.done true))
  else
    (s.setDec { s.dec with remaining := BitVec.ofNat 4 (tailLen b), acc := 0, state := .awaitingTail }).answer (.ok (.done false))

/-- DEC.ACCEPT from AWAITING_TAIL (R85, second block): accumulate, check for overflow, decrement, test for completion. -/
def acceptTail (b : Byte) (s : State) : State :=
  let a := accumulate s.dec.acc b
  let r := s.dec.remaining - 1
  if Config.maxTail < a then (s.setDec { s.dec with acc := a }).raise .valueTooLarge
  else if r = 0 then
    (s.setDec { state := .ready, remaining := r, acc := a, value := a + Config.baseWord }).answer (.ok (.done true))
  else (s.setDec { s.dec with remaining := r, acc := a }).answer (.ok (.done false))

/-- DEC.ACCEPT in any state (R85, R88): the byte joins DEC_IN where it is accepted. -/
def decAccept (b : Byte) (s : State) : State :=
  match s.dec.state with
  | .notStarted => acceptFirst b (s.takeIn b)
  | .awaitingTail => acceptTail b (s.takeIn b)
  | .ready => s.answer .notAccepted
  | .failed => s.answer .notAccepted

/-- DEC.RESET (R86). -/
def decReset (s : State) : State := s.clearDec.answer (.ok .none)

/-- DEC.VALUE (R87): it writes no state element. -/
def decValue (s : State) : State :=
  match s.dec.state with
  | .ready => s.answer (.ok (.value s.dec.value))
  | .notStarted => s.raise .notReady
  | .awaitingTail => s.raise .notReady
  | .failed => s.raise .notReady

/-- DEC.ACCEPT b (R85). -/
def execDecAccept (b : Byte) (s : State) : Host.Outcome State Fault Refusal := s.operate (decAccept b)

/-- DEC.RESET (R86). -/
def execDecReset (s : State) : Host.Outcome State Fault Refusal := s.operate decReset

/-- DEC.VALUE (R87). -/
def execDecValue (s : State) : Host.Outcome State Fault Refusal := s.operate decValue

end Sys2Proof.Machine
end

