-- ==== Sys2Proof/Machine/Wire.lean ====
section
/-! DEFINITION. Bytes of a span offered to DEC one DEC.ACCEPT a step (R5, R91), and the wire-format rows: each offers its first byte and
leaves its other bytes to the steps after it (R51, R52; DESIGN CHOICE, log entry 3). -/

namespace Sys2Proof.Machine

/-- The DEC.ACCEPTs of DEC.FEED: one byte at a time while DEC accepts (R91). The state after them and the bytes consumed. -/
def feed : List Byte → State → State × Nat
  | [], s => (s, 0)
  | b :: bs, s =>
    if s.dec.inReady then
      let r := feed bs (decAccept b s)
      (r.1, r.2 + 1)
    else (s, 0)

/-- The loop test of DEC.FEED (R91): while bytes are left and DEC accepts, the host goes on with them in its next action; bytes that
DEC does not take stay with the host. -/
def State.feedNext (rest : List Byte) (s : State) : State :=
  { s with host := if s.dec.inReady && !rest.isEmpty then .feed rest :: s.host else s.host }

/-- One operation (R5): DEC.ACCEPT of the first byte of a span. The other bytes come next if DEC still accepts. -/
def offer : List Byte → State → State
  | [], s => s
  | b :: bs, s => (decAccept b s).feedNext bs

/-- One step of a DEC.FEED that the host is at (R91): nothing when DEC accepts no byte, else DEC.ACCEPT of the next one. -/
def feedStep (span : List Byte) (s : State) : State := if s.dec.inReady then offer span s else s

/-- W1, first byte 0vvvvvvv (R51, R53). -/
def execW1_0vvvvvvv (v : Byte) (s : State) : Host.Outcome State Fault Refusal := s.operate (offer (Instr.w1_0vvvvvvv v).span)

/-- W1, first byte 10vvvvvv (R51, R53). -/
def execW1_10vvvvvv (v : Byte) (s : State) : Host.Outcome State Fault Refusal := s.operate (offer (Instr.w1_10vvvvvv v).span)

/-- W1, first byte 110vvvvv (R51, R53). -/
def execW1_110vvvvv (v : Byte) (s : State) : Host.Outcome State Fault Refusal := s.operate (offer (Instr.w1_110vvvvv v).span)

/-- W1, first byte 1110vvvv (R51, R53). -/
def execW1_1110vvvv (v : Byte) (s : State) : Host.Outcome State Fault Refusal := s.operate (offer (Instr.w1_1110vvvv v).span)

/-- W1, first byte 11110vvv (R51, R53). -/
def execW1_11110vvv (v : Byte) (s : State) : Host.Outcome State Fault Refusal := s.operate (offer (Instr.w1_11110vvv v).span)

/-- W2 (R52). -/
def execW2 (t : BitVec 8) (s : State) : Host.Outcome State Fault Refusal := s.operate (offer (Instr.w2 t).span)

/-- W3 (R52). -/
def execW3 (t : BitVec 16) (s : State) : Host.Outcome State Fault Refusal := s.operate (offer (Instr.w3 t).span)

/-- W4 (R52). -/
def execW4 (t : BitVec 24) (s : State) : Host.Outcome State Fault Refusal := s.operate (offer (Instr.w4 t).span)

/-- W5 (R52). -/
def execW5 (t : BitVec 32) (s : State) : Host.Outcome State Fault Refusal := s.operate (offer (Instr.w5 t).span)

/-- W6 (R52). -/
def execW6 (t : BitVec 40) (s : State) : Host.Outcome State Fault Refusal := s.operate (offer (Instr.w6 t).span)

/-- W7 (R52). -/
def execW7 (t : BitVec 48) (s : State) : Host.Outcome State Fault Refusal := s.operate (offer (Instr.w7 t).span)

/-- W8 (R52). -/
def execW8 (t : BitVec 56) (s : State) : Host.Outcome State Fault Refusal := s.operate (offer (Instr.w8 t).span)

/-- W9 (R52, R58). -/
def execW9 (t : BitVec 64) (s : State) : Host.Outcome State Fault Refusal := s.operate (offer (Instr.w9 t).span)

end Sys2Proof.Machine
end

