-- ==== Sys2Proof/Machine/Dispatch.lean ====
section
/-! DEFINITION. One arm per row of spec/opcode_table.json. -/

namespace Sys2Proof.Machine

def exec (i : Instr) (s : State) : Host.Outcome State Fault Refusal :=
  match i with
  | .reset => Sys2Proof.Machine.execReset s
  | .decReset => Sys2Proof.Machine.execDecReset s
  | .decAccept b => Sys2Proof.Machine.execDecAccept b s
  | .decValue => Sys2Proof.Machine.execDecValue s
  | .encReset => Sys2Proof.Machine.execEncReset s
  | .encLoad v => Sys2Proof.Machine.execEncLoad v s
  | .encFull => Sys2Proof.Machine.execEncFull s
  | .encEmit => Sys2Proof.Machine.execEncEmit s
  | .encSize v => Sys2Proof.Machine.execEncSize v s
  | .sgnTou x => Sys2Proof.Machine.execSgnTou x s
  | .sgnTos u => Sys2Proof.Machine.execSgnTos u s
  | .w1_0vvvvvvv v => Sys2Proof.Machine.execW1_0vvvvvvv v s
  | .w1_10vvvvvv v => Sys2Proof.Machine.execW1_10vvvvvv v s
  | .w1_110vvvvv v => Sys2Proof.Machine.execW1_110vvvvv v s
  | .w1_1110vvvv v => Sys2Proof.Machine.execW1_1110vvvv v s
  | .w1_11110vvv v => Sys2Proof.Machine.execW1_11110vvv v s
  | .w2 t => Sys2Proof.Machine.execW2 t s
  | .w3 t => Sys2Proof.Machine.execW3 t s
  | .w4 t => Sys2Proof.Machine.execW4 t s
  | .w5 t => Sys2Proof.Machine.execW5 t s
  | .w6 t => Sys2Proof.Machine.execW6 t s
  | .w7 t => Sys2Proof.Machine.execW7 t s
  | .w8 t => Sys2Proof.Machine.execW8 t s
  | .w9 t => Sys2Proof.Machine.execW9 t s

end Sys2Proof.Machine
end

