-- ==== Sys2Proof/Machine/Run.lean ====
section
/-! DEFINITION. Finite sequences of operations in the host's order (R43), the form in which a pseudo-operation expands (R64). -/

namespace Sys2Proof.Machine

/-- Run operations one after another, each from the state the one before it left (R43). -/
def runOps : List Instr → State → Host.Outcome State Fault Refusal
  | [], s => .next s
  | i :: is, s =>
    match exec i s with
    | .next t => runOps is t
    | .fault f => .fault f
    | .refused r => .refused r

end Sys2Proof.Machine
end

