-- ==== Sys2Proof/Machine/Ports.lean ====
section
/-! DEFINITION. The clocked port binding (R65 to R67): which operations happen at an edge, and the output signals. -/

namespace Sys2Proof.Machine

/-- The state-changing operation of DEC at an edge at which `rst` is 0 (R66). A request that loses, or that is not accepted, is no
operation of the edge. DESIGN CHOICE (log entry 11): it leaves the recorded outcome as it was, where the same request by itself records
NotAccepted. -/
def edgeDec (p : PortIn) (s : State) : List Instr :=
  if p.decClr then [.decReset]
  else if p.decInValid && s.dec.inReady then [.decAccept p.decInByte]
  else []

/-- The state-changing operation of ENC at an edge at which `rst` is 0 (R66): in EMIT, ENC.FULL goes before ENC.EMIT. A request that loses,
or that is ignored or not accepted, leaves the recorded outcome as it was (DESIGN CHOICE, log entry 11). -/
def edgeEnc (p : PortIn) (s : State) : List Instr :=
  if p.encClr then [.encReset]
  else match s.enc.state with
    | .idle => if p.encLoad then [.encLoad p.encValue] else []
    | .emit => if p.encOutFull then [.encFull] else if p.encOutReady then [.encEmit] else []
    | .fault => []

/-- The operations of an edge in order (R66, R67): DEC.VALUE reads the state from before the edge, then `rst` over everything else.
Before the first RESET only RESET has a meaning (R132), and a read beside `rst` is dropped, having nothing to read. DESIGN CHOICE (log
entry 5): an edge with `rst` = 0 stops there only if it holds an operation, that is on dec_rd, on dec_clr, on enc_clr, or on a strobe
that the free state from power-up accepts; without one it answers a next state with nothing changed. -/
def edgeOps (p : PortIn) (s : State) : List Instr :=
  let read := if p.decRd && (s.resetDone || !p.rst) then [Instr.decValue] else []
  if p.rst then read ++ [.reset] else read ++ edgeDec p s ++ edgeEnc p s

/-- One clock edge (R67). -/
def clockEdge (p : PortIn) (s : State) : Host.Outcome State Fault Refusal := runOps (edgeOps p s) s

/-- The output signals of the port binding (R65). -/
structure PortOut where
  encSizeQ : Count
  encIdle : Bool
  encOutValid : Bool
  encOutByte : Byte
  encOutLast : Bool
  encFault : Bool
  encCause : BitVec 3
  encErr : Bool
  decInReady : Bool
  decDone : Bool
  decValueQ : Word
  decRdErr : Bool
  decFault : Bool
  decCause : BitVec 3
  decErr : Bool
  deriving DecidableEq, Repr

/-- dec_value_q (R65): the value when dec_done is 1, a free value otherwise (U10). -/
def State.decValueQ (s : State) : Word := if s.dec.done then s.dec.value else Config.decValueQ s.draw

/-- enc_out_byte (R80): the byte ENC.EMIT would return in EMIT, a free value otherwise (U10). -/
def State.encOutByte (s : State) : Byte := if s.enc.outValid then s.enc.nextByte else Config.encOutByte s.draw

/-- The outputs in a cycle with inputs `p` (R24, R25, R65). -/
def State.outputs (p : PortIn) (s : State) : PortOut :=
  { encSizeQ := BitVec.ofNat 4 (encodedSize p.encValue)
    encIdle := s.enc.isIdle
    encOutValid := s.enc.outValid
    encOutByte := s.encOutByte
    encOutLast := s.enc.outLast
    encFault := s.enc.faulted
    encCause := s.enc.cause
    encErr := s.encErr
    decInReady := s.dec.inReady
    decDone := s.dec.done
    decValueQ := s.decValueQ
    decRdErr := p.decRd && !s.dec.done
    decFault := s.dec.faulted
    decCause := s.dec.cause
    decErr := s.decErr }

end Sys2Proof.Machine
end

