-- ==== Sys2Proof/Machine/Step.lean ====
section
/-! DEFINITION. One step (R5): the host's next action is taken and run. A request is one operation on one unit, and so
is a byte of a span. Nothing happens when the host does nothing (R6). -/

namespace Sys2Proof.Machine

/-- One step of the machine. -/
def step (s : State) : Host.Outcome State Fault Refusal :=
  match s.host with
  | [] => .next s.newCycle
  | .request r :: actions =>
    match decode s.enc.state r with
    | .op i rest => exec i (s.newCycle.later rest actions)
    | .reject _ => .next (s.newCycle.later [] actions)
  | .feed span :: actions => (s.newCycle.later [] actions).operate (feedStep span)
  | .edge p :: actions => clockEdge p (s.newCycle.later [] actions)

/-- Steps one after another. -/
def runSteps : Nat → State → Host.Outcome State Fault Refusal
  | 0, s => .next s
  | k + 1, s =>
    match step s with
    | .next t => runSteps k t
    | .fault f => .fault f
    | .refused r => .refused r

/-- The state in which the next step runs the instruction of a table word: the host's next action is that word's request (log entries
1 and 4). -/
def State.withFetchWord (s : State) (nbits w : Nat) : State :=
  { s with host := .request (tableRequest nbits w) :: s.host }

end Sys2Proof.Machine
end

