-- ==== Sys2Proof/Machine/Abstract.lean ====
section
/-! DEFINITION. The abstract views of the two units (R18, R23) and the states that no operation tells apart (R30). -/

namespace Sys2Proof.Machine

/-- The abstract state of DEC (R18). -/
inductive DecAbs where
  | notStarted
  | awaitingTail (remaining : Count) (acc : Word)
  | ready (value : Word)
  | failed
  deriving DecidableEq, Repr

/-- The abstract state of ENC (R23). -/
inductive EncAbs where
  | idle
  | emit (size left : Count) (body : Word)
  | fault
  deriving DecidableEq, Repr

/-- The abstraction of a flat DEC state (R18). -/
def Dec.abs (d : Dec) : DecAbs :=
  match d.state with
  | .notStarted => .notStarted
  | .awaitingTail => .awaitingTail d.remaining d.acc
  | .ready => .ready d.value
  | .failed => .failed

/-- The abstraction of a flat ENC state (R23). -/
def Enc.abs (e : Enc) : EncAbs :=
  match e.state with
  | .idle => .idle
  | .emit => .emit e.size e.left e.body
  | .fault => .fault

/-- Two states that differ at most in fields outside their meaningful state (R30). -/
def State.alike (s t : State) : Prop :=
  s.dec.abs = t.dec.abs ∧ s.enc.abs = t.enc.abs ∧
    { s with dec := {}, enc := {} } = { t with dec := {}, enc := {} }

end Sys2Proof.Machine
end

