-- ==== Sys2Proof/Machine/Instances.lean ====
section
/-! DEFINITION. Any number of instances (R33, R124): a list of blocks that share nothing, and the refusal of two drivers on one unit
(R46, R135). -/

namespace Sys2Proof.Machine

/-- A number of instances, each with its own state (R33). -/
structure Bank where
  blocks : List State
  deriving DecidableEq, Repr

/-- Whether an operation drives DEC: reads or writes its state (R62). -/
def drivesDec : Instr → Bool
  | .reset => true
  | .decReset => true
  | .decAccept _ => true
  | .decValue => true
  | .encReset => false
  | .encLoad _ => false
  | .encFull => false
  | .encEmit => false
  | .encSize _ => false
  | .sgnTou _ => false
  | .sgnTos _ => false
  | .w1_0vvvvvvv _ => true
  | .w1_10vvvvvv _ => true
  | .w1_110vvvvv _ => true
  | .w1_1110vvvv _ => true
  | .w1_11110vvv _ => true
  | .w2 _ => true
  | .w3 _ => true
  | .w4 _ => true
  | .w5 _ => true
  | .w6 _ => true
  | .w7 _ => true
  | .w8 _ => true
  | .w9 _ => true

/-- Whether an operation drives ENC: reads or writes its state (R62). -/
def drivesEnc : Instr → Bool
  | .reset => true
  | .decReset => false
  | .decAccept _ => false
  | .decValue => false
  | .encReset => true
  | .encLoad _ => true
  | .encFull => true
  | .encEmit => true
  | .encSize _ => false
  | .sgnTou _ => false
  | .sgnTos _ => false
  | .w1_0vvvvvvv _ => false
  | .w1_10vvvvvv _ => false
  | .w1_110vvvvv _ => false
  | .w1_1110vvvv _ => false
  | .w1_11110vvv _ => false
  | .w2 _ => false
  | .w3 _ => false
  | .w4 _ => false
  | .w5 _ => false
  | .w6 _ => false
  | .w7 _ => false
  | .w8 _ => false
  | .w9 _ => false

/-- One operation on instance `n` (R33). -/
def Bank.issue (n : Nat) (i : Instr) (k : Bank) : Host.Outcome Bank Fault Refusal :=
  match k.blocks[n]? with
  | none => .refused .noSuchInstance
  | some s =>
    match exec i s with
    | .next t => .next { blocks := k.blocks.set n t }
    | .fault f => .fault f
    | .refused r => .refused r

/-- Two requests of one turn meet on one unit of one instance. -/
def requestsMeet (a b : Nat × Instr) : Bool :=
  a.1 == b.1 && (drivesDec a.2 && drivesDec b.2 || drivesEnc a.2 && drivesEnc b.2)

/-- Some two requests of a turn meet. -/
def concurrent : List (Nat × Instr) → Bool
  | [] => false
  | r :: rs => rs.any (requestsMeet r) || concurrent rs

/-- The requests of a turn, one after another. -/
def Bank.issueAll : List (Nat × Instr) → Bank → Host.Outcome Bank Fault Refusal
  | [], k => .next k
  | r :: rs, k =>
    match k.issue r.1 r.2 with
    | .next k' => Bank.issueAll rs k'
    | .fault f => .fault f
    | .refused r => .refused r

/-- The requests that several hosts make at the same time, each host driving units of its own (R135). A turn with two drivers on one
unit has no meaning and is refused (R46). -/
def Bank.turn (rs : List (Nat × Instr)) (k : Bank) : Host.Outcome Bank Fault Refusal :=
  if concurrent rs then .refused .concurrentUse else Bank.issueAll rs k

end Sys2Proof.Machine
end

