-- ==== Sys2Proof/Machine/Codec.lean ====
section
/-! DEFINITION. The reference functions on whole encodings, without state: `Encode` (R77) and `Decode` (R93). -/

namespace Sys2Proof.Machine

/-- The outcome of a pseudo-operation (R64): its results, an error, or not started because its first operation was NotAccepted. -/
inductive PseudoResult (α : Type) where
  | ok (a : α)
  | err (k : ErrorKind)
  | notStarted
  deriving DecidableEq, Repr

/-- `Encode(v)` (R77): the value as one byte, or the header and the big-endian tail (R56). -/
def encodeBytes (v : Word) : List Byte :=
  if v < Config.baseWord then [v.setWidth 8] else headed (encodedSize v - 1) (encodedBody v)

/-- `Decode(s)` (R93): the value and the number of bytes it took. -/
def decodeBytes : List Byte → PseudoResult (Word × Nat)
  | [] => .err .tooFewBytes
  | b :: bs =>
    if b < Config.base then .ok (b.setWidth 64, 1)
    else if bs.length < tailLen b then .err .tooFewBytes
    else if Config.maxTail.toNat < bigEndian (bs.take (tailLen b)) then .err .valueTooLarge
    else .ok (BitVec.ofNat 64 (bigEndian (bs.take (tailLen b)) + 248), 1 + tailLen b)

end Sys2Proof.Machine
end

