-- ==== Sys2Proof/Machine/Pseudo.lean ====
section
/-! DEFINITION. The pseudo-operations (R64): fixed sequences of operations that the host performs. They add no state and no behaviour. Each is
its expansion, a function of the state, behind the guard of the first RESET, which all operations of the block have (R132). The recorded
outcome after one is that of the last operation of its expansion (DESIGN CHOICE, log entry 2). -/

namespace Sys2Proof.Machine

/-- A pseudo-operation on the block: none of its operations has a behaviour before the first RESET (R132, R133). DESIGN
CHOICE (log entry 7): its operations are no steps and no cycles pass over them, so that no error pulse ends but by a reset of its unit,
and the other unit's dec_err or enc_err stands through it. -/
def State.perform {α : Type} (f : State → State × α) (s : State) : Host.Outcome (State × α) Fault Refusal :=
  if s.resetDone then .next (f s) else .fault .beforeFirstReset

/-! ## Encoding -/

/-- ENC.EMIT repeated until `last` (R77), at most `k` times: the state after it and the bytes in order. -/
def emitAll : Nat → State → State × List Byte
  | 0, s => (s, [])
  | k + 1, s =>
    if s.enc.outValid then
      let r := emitAll k (encEmit s)
      (r.1, s.enc.nextByte :: r.2)
    else (s, [])

/-- The expansion of ENCODE v (R77). -/
def encodeExpansion (v : Word) (s : State) : State × PseudoResult (List Byte) :=
  if s.enc.isIdle then
    let r := emitAll Config.maxLen (encLoad v s)
    (r.1, .ok r.2)
  else (encLoad v s, .notStarted)

/-- ENCODE v (R77). -/
def encodeOp (v : Word) (s : State) : Host.Outcome (State × PseudoResult (List Byte)) Fault Refusal :=
  s.perform (encodeExpansion v)

/-- The loop of ENCODE.CAP (R78): ENC.EMIT while the sink has room, ENC.FULL when it has none and a byte is still offered. -/
def emitCapped : Nat → State → State × List Byte
  | 0, s => if s.enc.outValid then (encFull s, []) else (s, [])
  | k + 1, s =>
    if s.enc.outValid then
      let r := emitCapped k (encEmit s)
      (r.1, s.enc.nextByte :: r.2)
    else (s, [])

/-- The expansion of ENCODE.CAP v, cap (R78). After an error the bytes already emitted stay in ENC_OUT (R37). -/
def encodeCapExpansion (v : Word) (cap : Nat) (s : State) : State × PseudoResult (List Byte) :=
  if s.enc.isIdle then
    let r := emitCapped cap (encLoad v s)
    (r.1, if r.1.enc.faulted then .err .tooFewBytes else .ok r.2)
  else (encLoad v s, .notStarted)

/-- ENCODE.CAP v, cap (R78). -/
def encodeCap (v : Word) (cap : Nat) (s : State) : Host.Outcome (State × PseudoResult (List Byte)) Fault Refusal :=
  s.perform (encodeCapExpansion v cap)

/-- ENCODE.S x (R108). SGN.TOU comes first and leaves only an answer, which ENC.LOAD's replaces (log entry 2). -/
def encodeSigned (x : Word) (s : State) : Host.Outcome (State × PseudoResult (List Byte)) Fault Refusal :=
  encodeOp (toUnsigned x) s

/-! ## Feeding -/

/-- What DEC.FEED and DEC.FEEDCHUNKS give (R91, R92): the status, the count, and the error if one of their DEC.ACCEPTs raised it. -/
structure FeedResult where
  status : FeedStatus
  consumed : Nat
  error : Option ErrorKind
  deriving DecidableEq, Repr

/-- The results of a feed, from the state it ended in and the bytes it consumed (R91): entered in FAILED it consumes none and raises
nothing. -/
def feedResult (r : State × Nat) : State × FeedResult :=
  (r.1, { status := r.1.dec.status
          consumed := r.2
          error := if r.1.dec.status = .failed ∧ r.2 ≠ 0 then some .valueTooLarge else none })

/-- DEC.FEED s (R91). -/
def decFeed (span : List Byte) (s : State) : Host.Outcome (State × FeedResult) Fault Refusal :=
  s.perform fun s => feedResult (feed span s)

/-- The DEC.FEEDs of DEC.FEEDCHUNKS, chunk by chunk while DEC accepts (R92): the state after them and the cumulative count. -/
def feedEach : List (List Byte) → State → State × Nat
  | [], s => (s, 0)
  | c :: cs, s =>
    if s.dec.inReady then
      let r := feed c s
      let q := feedEach cs r.1
      (q.1, r.2 + q.2)
    else (s, 0)

/-- DEC.FEEDCHUNKS c (R92). -/
def feedChunks (chunks : List (List Byte)) (s : State) : Host.Outcome (State × FeedResult) Fault Refusal :=
  s.perform fun s => feedResult (feedEach chunks s)

/-! ## One-shot decoding -/

/-- The expansion of DECODE s (R93): DEC.RESET, DEC.FEED, then DEC.VALUE when a value is complete. -/
def decodeExpansion (span : List Byte) (s : State) : State × PseudoResult (Word × Nat) :=
  let r := feed span (decReset s)
  match r.1.dec.status with
  | .done => (decValue r.1, .ok (r.1.dec.value, r.2))
  | .failed => (r.1, .err .valueTooLarge)
  | .notDone => (r.1, .err .tooFewBytes)

/-- DECODE s (R93). -/
def decodeOp (span : List Byte) (s : State) : Host.Outcome (State × PseudoResult (Word × Nat)) Fault Refusal :=
  s.perform (decodeExpansion span)

/-- DECODE.BUF buf, offset, count (R94): the host checks the range before any operation of the block. -/
def decodeBuf (buf : List Byte) (offset count : Int) (s : State) : Host.Outcome (State × PseudoResult (Word × Nat)) Fault Refusal :=
  if offset < 0 ∨ count < 1 ∨ (buf.length : Int) < offset + count then .next (s, .err .invalidRange)
  else decodeOp ((buf.drop offset.toNat).take count.toNat) s

/-- The expansion of DECODE.S s (R108): DECODE, then SGN.TOS on the value of an Ok outcome; a count and an error pass through. DESIGN
CHOICE (log entry 2): the recorded outcome is that of the last operation, SGN.TOS's after an Ok; the spec has no such record. -/
def decodeSignedExpansion (span : List Byte) (s : State) : State × PseudoResult (Word × Nat) :=
  let r := decodeExpansion span s
  match r.2 with
  | .ok (u, n) => (sgnTos u r.1, .ok (toSigned u, n))
  | .err k => (r.1, .err k)
  | .notStarted => (r.1, .notStarted)

/-- DECODE.S s (R108). -/
def decodeSigned (span : List Byte) (s : State) : Host.Outcome (State × PseudoResult (Word × Nat)) Fault Refusal :=
  s.perform (decodeSignedExpansion span)

end Sys2Proof.Machine
end

