-- ==== Sys2Proof/Safety.lean ====
section
/-! DEFINITION. What claims about a run take as premises: no error standing (R120), and the invariants of reachable states (R31, R32,
R139, R98). -/

namespace Sys2Proof.Machine

/-- No terminal error is standing (R120: `dec_fault` = 0 and `enc_fault` = 0). -/
def State.safe (s : State) : Bool := !s.dec.faulted && !s.enc.faulted

/-- The ranges of DEC (R31): in AWAITING_TAIL 1 to 8 tail bytes are missing and the accumulator fits the bytes seen. -/
def Dec.inRange (d : Dec) : Prop :=
  d.state = .awaitingTail →
    1 ≤ d.remaining.toNat ∧ d.remaining.toNat ≤ 8 ∧ d.acc.toNat < 2 ^ (8 * (8 - d.remaining.toNat))

/-- The ranges of ENC (R32): in EMIT 1 ≤ left ≤ size ≤ 9, and the body needs exactly `size` bytes. -/
def Enc.inRange (e : Enc) : Prop :=
  e.state = .emit →
    1 ≤ e.left.toNat ∧ e.left.toNat ≤ e.size.toNat ∧ e.size.toNat ≤ 9 ∧
    (e.size.toNat = 1 → e.body.toNat ≤ 247) ∧
    (2 ≤ e.size.toNat → e.body.toNat ≤ 2 ^ (8 * (e.size.toNat - 1)) - 1) ∧
    (3 ≤ e.size.toNat → 2 ^ (8 * (e.size.toNat - 2)) ≤ e.body.toNat)

/-- R31 and R32 for a block after its first RESET; before it nothing is known (R132). -/
def State.inRange (s : State) : Prop := s.resetDone = true → s.dec.inRange ∧ s.enc.inRange

/-- What the end of DEC_IN says in each control state of DEC: the bytes of the value in progress, complete or failed (R16, R17, R93). -/
def State.decTracksStream (s : State) : Prop :=
  match s.dec.state with
  | .notStarted => True
  | .awaitingTail => ∃ before header tail, s.decIn = before ++ header :: tail ∧ ¬ header < Config.base ∧
      tail.length + s.dec.remaining.toNat = tailLen header ∧ 1 ≤ s.dec.remaining.toNat ∧ s.dec.acc.toNat = bigEndian tail
  | .ready => ∃ before span, s.decIn = before ++ span ∧ decodeBytes span = .ok (s.dec.value, span.length)
  | .failed => ∃ before span, s.decIn = before ++ span ∧ span.length = 9 ∧ decodeBytes span = .err .valueTooLarge

/-- What the end of ENC_OUT says in EMIT and FAULT: the first `size - left` bytes of the encoding of the loaded value (R21, R22, R139). -/
def State.encTracksStream (s : State) : Prop :=
  s.enc.state ≠ .idle → ∃ before v, s.encOut = before ++ (encodeBytes v).take (s.enc.size.toNat - s.enc.left.toNat) ∧
    s.enc.size.toNat = encodedSize v ∧ s.enc.body = encodedBody v ∧ 1 ≤ s.enc.left.toNat ∧ s.enc.left.toNat ≤ s.enc.size.toNat

/-- The two streams agree with the state of the units, for a block after its first RESET. -/
def State.tracksStreams (s : State) : Prop := s.resetDone = true → s.decTracksStream ∧ s.encTracksStream

end Sys2Proof.Machine
end

