-- ==== Sys2Proof/Certificates/Slice0/Obligations.lean ====
section
/-! DEFINITION. The statements for the provers, in the order of OBLIGATIONS.json. Each docstring names the rule it formalises or rests
on. `s.resetDone = true` says that RESET has been applied since power-up (R133). -/

open Sys2Proof Sys2Proof.Machine

/-! ## Resets -/

/-- R130: RESET, from any state, the unspecified power-up state included; at an edge `rst` goes before every other request. -/
def Obligations.ResetClearsBothUnits : Prop :=
  ∀ s : State, ∃ t, exec .reset s = .next t ∧
    t.dec = { state := .notStarted, remaining := 0, acc := 0, value := 0 } ∧
    t.enc = { state := .idle, size := 0, left := 0, body := 0 } ∧
    t.outcome = .ok .none ∧
    t.dec.inReady = true ∧ t.dec.done = false ∧ t.dec.faulted = false ∧ t.dec.cause = 0 ∧
    t.enc.isIdle = true ∧ t.enc.outValid = false ∧ t.enc.faulted = false ∧ t.enc.cause = 0 ∧
    exec .reset t = .next t ∧
    ∀ p : PortIn, p.rst = true → ∃ u, clockEdge p s = .next u ∧ u.dec = t.dec ∧ u.enc = t.enc

/-- R86: DEC.RESET, from any state; twice is once. -/
def Obligations.DecResetClearsDec : Prop :=
  ∀ s : State, s.resetDone = true → ∃ t, exec .decReset s = .next t ∧
    t.dec = { state := .notStarted, remaining := 0, acc := 0, value := 0 } ∧ t.outcome = .ok .none ∧
    t.dec.inReady = true ∧ t.dec.done = false ∧ t.dec.faulted = false ∧ t.dec.cause = 0 ∧
    exec .decReset t = .next t

/-- R74: ENC.RESET, from any state; the bytes already emitted stay, and twice is once. -/
def Obligations.EncResetClearsEnc : Prop :=
  ∀ s : State, s.resetDone = true → ∃ t, exec .encReset s = .next t ∧
    t.enc = { state := .idle, size := 0, left := 0, body := 0 } ∧ t.outcome = .ok .none ∧ t.encOut = s.encOut ∧
    t.enc.isIdle = true ∧ t.enc.outValid = false ∧ t.enc.faulted = false ∧ t.enc.cause = 0 ∧
    exec .encReset t = .next t

/-- R34: every state element is zero after RESET; DEC.RESET and ENC.RESET write the same values to their unit. -/
def Obligations.ResetValuesAreZero : Prop :=
  (∀ s : State, ∃ t, exec .reset s = .next t ∧
    t.dec.state.code = 0 ∧ t.dec.remaining = 0 ∧ t.dec.acc = 0 ∧ t.dec.value = 0 ∧
    t.enc.state.code = 0 ∧ t.enc.size = 0 ∧ t.enc.left = 0 ∧ t.enc.body = 0 ∧
    t.dec = State.reset.dec ∧ t.enc = State.reset.enc ∧
    (s.resetDone = true → (∃ u, exec .decReset s = .next u ∧ u.dec = t.dec) ∧ ∃ u, exec .encReset s = .next u ∧ u.enc = t.enc)) ∧
  State.reset.dec.state = .notStarted ∧ State.reset.enc.state = .idle

/-- R99 (with R86): every later sequence of DEC operations and wire-format rows gives the same DEC and the same outcome after
DEC.RESET as on a fresh DEC. -/
def Obligations.DecResetIsFreshDec : Prop :=
  ∀ (s t : State) (is : List Instr), s.resetDone = true → exec .decReset s = .next t →
    (∀ i ∈ is, drivesDec i = true) →
    ∃ u w, runOps is t = .next u ∧ runOps is State.reset = .next w ∧ u.dec = w.dec ∧ u.outcome = w.outcome

/-- R132 and U9, with the model's reading of R133 (log entry 5): before the first RESET no operation of the block has a
behaviour; RESET has its own, and the stateless SGN functions are outside the block (R109). -/
def Obligations.NoBehaviourBeforeFirstReset : Prop :=
  ∀ (i : Instr) (s : State), s.resetDone = false →
    (i = .reset → ∃ t, exec i s = .next t ∧ t.resetDone = true ∧ t.decIn = [] ∧ t.encOut = []) ∧
    ((∃ x, i = .sgnTou x ∨ i = .sgnTos x) → ∃ t, exec i s = .next t ∧ t.resetDone = false) ∧
    (i ≠ .reset → (∀ x, i ≠ .sgnTou x ∧ i ≠ .sgnTos x) → exec i s = .fault .beforeFirstReset)

/-! ## The streaming decoder -/

/-- R85: DEC.ACCEPT from NOT_STARTED and from AWAITING_TAIL, with the sums and comparisons on natural numbers. -/
def Obligations.DecAcceptTransitions : Prop :=
  ∀ (b : Byte) (s : State), s.resetDone = true → s.dec.state = .notStarted ∨ s.dec.state = .awaitingTail →
    ∃ t, exec (.decAccept b) s = .next t ∧ t.decIn = s.decIn ++ [b] ∧
    (s.dec.state = .notStarted → b.toNat < 248 →
      t.dec = { s.dec with value := BitVec.ofNat 64 b.toNat, state := .ready } ∧ t.outcome = .ok (.done true)) ∧
    (s.dec.state = .notStarted → 248 ≤ b.toNat →
      t.dec = { s.dec with remaining := BitVec.ofNat 4 (b.toNat - 248 + 1), acc := 0, state := .awaitingTail } ∧
      t.outcome = .ok (.done false)) ∧
    (s.dec.state = .awaitingTail → ∀ a : Nat, a = (s.dec.acc.toNat * 256 + b.toNat) % 2 ^ 64 →
      (2 ^ 64 - 1 - 248 < a →
        t.dec = { s.dec with acc := BitVec.ofNat 64 a, state := .failed } ∧ t.outcome = .err .valueTooLarge) ∧
      (a ≤ 2 ^ 64 - 1 - 248 → s.dec.remaining = 1 →
        t.dec = { state := .ready, remaining := 0, acc := BitVec.ofNat 64 a, value := BitVec.ofNat 64 (a + 248) } ∧
        t.outcome = .ok (.done true)) ∧
      (a ≤ 2 ^ 64 - 1 - 248 → s.dec.remaining ≠ 1 →
        t.dec = { s.dec with remaining := s.dec.remaining - 1, acc := BitVec.ofNat 64 a } ∧ t.outcome = .ok (.done false))) ∧
    (∀ d, t.outcome = .ok (.done d) → d = t.dec.done)

/-- R88, with NotAccepted as a step that changes nothing but the answer (log entry 2): DEC.ACCEPT in READY or FAILED consumes no byte,
and dec_in_ready shows it. -/
def Obligations.DecAcceptOutsideItsStates : Prop :=
  ∀ (b : Byte) (s : State), s.resetDone = true → s.dec.state = .ready ∨ s.dec.state = .failed →
    exec (.decAccept b) s = .next { s with outcome := .notAccepted } ∧ s.dec.inReady = false

/-- R87: DEC.VALUE answers the value in READY, NotReady elsewhere, and writes nothing in either case. -/
def Obligations.DecValueReadsWithoutEffect : Prop :=
  ∀ s : State, s.resetDone = true →
    (s.dec.state = .ready → exec .decValue s = .next { s with outcome := .ok (.value s.dec.value) }) ∧
    (s.dec.state ≠ .ready → exec .decValue s = .next { s with outcome := .err .notReady }) ∧
    ∀ t, exec .decValue s = .next t → exec .decValue t = .next t

/-- R90, for the states of R31: the overflow detector fires exactly on an eighth tail byte of 8 or more after seven bytes 0xFF. -/
def Obligations.OverflowOnlyOnEighthTailByte : Prop :=
  ∀ (b : Byte) (s t : State), s.resetDone = true → s.dec.state = .awaitingTail → s.dec.inRange →
    exec (.decAccept b) s = .next t →
    (t.outcome = .err .valueTooLarge ↔ s.dec.remaining = 1 ∧ s.dec.acc.toNat = 2 ^ 56 - 1 ∧ 8 ≤ b.toNat) ∧
    (s.dec.remaining ≠ 1 → t.dec.state = .awaitingTail ∧ t.dec.remaining.toNat = s.dec.remaining.toNat - 1) ∧
    s.dec.acc.toNat * 256 + b.toNat < 2 ^ 64

/-! ## The wire-format rows -/

/-- R51 (a row as an offer of its bytes is log entry 3): each W1 row gives its byte to a DEC that has not started and the value is the
byte. -/
def Obligations.SingleByteRowsComplete : Prop :=
  ∀ (v : Byte) (s t : State), s.resetDone = true → s.dec.state = .notStarted →
    t = { s with
      dec := { s.dec with state := .ready, value := BitVec.ofNat 64 v.toNat }
      decIn := s.decIn ++ [v]
      outcome := .ok (.done true) } →
    (v.toNat < 0x80 → exec (.w1_0vvvvvvv v) s = .next t) ∧
    (0x80 ≤ v.toNat → v.toNat < 0xC0 → exec (.w1_10vvvvvv v) s = .next t) ∧
    (0xC0 ≤ v.toNat → v.toNat < 0xE0 → exec (.w1_110vvvvv v) s = .next t) ∧
    (0xE0 ≤ v.toNat → v.toNat < 0xF0 → exec (.w1_1110vvvv v) s = .next t) ∧
    (0xF0 ≤ v.toNat → v.toNat < 0xF8 → exec (.w1_11110vvv v) s = .next t)

/-- R52, R54 and R55 (a row as an offer of its bytes is log entry 3): the rows W2 to W8 give a DEC that has not started their header, the
steps after it give the tail, one byte each, and the value is 248 + tail. -/
def Obligations.HeadedRowsComplete : Prop :=
  ∀ s : State, s.resetDone = true → s.dec.state = .notStarted →
    let completes := fun (i : Instr) (n tail : Nat) => ∃ (bytes : List Byte) (t u : State),
      bytes.length = n - 1 ∧ bigEndian bytes = tail ∧
      exec i s = .next t ∧
      t.dec = { state := .awaitingTail, remaining := BitVec.ofNat 4 (n - 1), acc := 0, value := s.dec.value } ∧
      t.outcome = .ok (.done false) ∧ t.decIn = s.decIn ++ [BitVec.ofNat 8 (248 + (n - 2))] ∧
      t.host = .feed bytes :: s.host ∧
      runSteps (n - 1) t = .next u ∧
      u.dec = { state := .ready, remaining := 0, acc := BitVec.ofNat 64 tail, value := BitVec.ofNat 64 (248 + tail) } ∧
      u.outcome = .ok (.done true) ∧ u.decIn = s.decIn ++ BitVec.ofNat 8 (248 + (n - 2)) :: bytes ∧ u.host = s.host
    (∀ x : BitVec 8, completes (.w2 x) 2 x.toNat) ∧
    (∀ x : BitVec 16, completes (.w3 x) 3 x.toNat) ∧
    (∀ x : BitVec 24, completes (.w4 x) 4 x.toNat) ∧
    (∀ x : BitVec 32, completes (.w5 x) 5 x.toNat) ∧
    (∀ x : BitVec 40, completes (.w6 x) 6 x.toNat) ∧
    (∀ x : BitVec 48, completes (.w7 x) 7 x.toNat) ∧
    (∀ x : BitVec 56, completes (.w8 x) 8 x.toNat)

/-- R55 and R58 (a row as an offer of its bytes is log entry 3): a W9 row gives its header, and the eight steps after it complete
248 + tail when the tail is at most MAX, and fail with ValueTooLarge on the ninth byte when it is above. -/
def Obligations.NineByteRowCompletesOrOverflows : Prop :=
  ∀ (x : BitVec 64) (s : State), s.resetDone = true → s.dec.state = .notStarted →
    ∃ (bytes : List Byte) (t u : State), bytes.length = 8 ∧ bigEndian bytes = x.toNat ∧
      exec (.w9 x) s = .next t ∧
      t.dec = { state := .awaitingTail, remaining := 8, acc := 0, value := s.dec.value } ∧
      t.outcome = .ok (.done false) ∧ t.decIn = s.decIn ++ [0xFF] ∧ t.host = .feed bytes :: s.host ∧
      runSteps 8 t = .next u ∧ u.decIn = s.decIn ++ 0xFF :: bytes ∧ u.host = s.host ∧
      (x.toNat ≤ 2 ^ 64 - 1 - 248 →
        u.dec = { state := .ready, remaining := 0, acc := x, value := BitVec.ofNat 64 (248 + x.toNat) } ∧
        u.outcome = .ok (.done true)) ∧
      (2 ^ 64 - 1 - 248 < x.toNat →
        u.dec = { s.dec with state := .failed, remaining := 1, acc := x } ∧ u.outcome = .err .valueTooLarge)

/-- R58: the byte sequences that DECODE rejects as too large are exactly those that start with eight bytes 0xFF and a ninth byte of 8
or more; DEC is in FAILED after one, and no value is returned for it. -/
def Obligations.OverflowSequencesAreRejected : Prop :=
  ∀ (span : List Byte) (s : State), s.resetDone = true → ∃ t r, decodeOp span s = .next (t, r) ∧
    (r = .err .valueTooLarge ↔
      ∃ (last : Byte) (rest : List Byte), 8 ≤ last.toNat ∧ span = List.replicate 8 0xFF ++ last :: rest) ∧
    (r = .err .valueTooLarge → t.dec.state = .failed)

/-- R5 and R91 (a row as an offer of its bytes is log entry 3): in any state a wire-format row is one DEC.ACCEPT, of its first byte; the
steps after it are DEC.ACCEPTs of the next bytes, one each, to the end of the bytes or until DEC accepts no more. -/
def Obligations.WireRowIsItsAccepts : Prop :=
  ∀ (i : Instr) (s : State), i.span ≠ [] → s.resetDone = true →
    ∃ (b : Byte) (bs : List Byte) (u t : State), i.span = b :: bs ∧ exec (.decAccept b) s = .next u ∧ exec i s = .next t ∧
      t = { u with host := if u.dec.inReady = true ∧ bs ≠ [] then .feed bs :: s.host else s.host } ∧
      ∃ (k : Nat) (v w : State), runSteps k t = .next w ∧ runOps ((i.span.take (k + 1)).map .decAccept) s = .next v ∧
        (k + 1 = i.span.length ∨ w.dec.inReady = false) ∧
        w.dec = v.dec ∧ w.decIn = v.decIn ∧ w.outcome = v.outcome ∧ w.enc = s.enc ∧ w.encOut = s.encOut ∧ w.host = s.host

/-! ## The encoder -/

/-- R70: ENC.SIZE answers 1 below 248 and otherwise the smallest `N` in 2 to 9 whose `N - 1` tail bytes hold `v - 248`, in every state. -/
def Obligations.EncSizeIsSmallestLength : Prop :=
  ∀ (v : Word) (s : State), s.resetDone = true → ∃ n, exec (.encSize v) s = .next { s with outcome := .ok (.size n) } ∧
    (v.toNat < 248 → n = 1) ∧
    (248 ≤ v.toNat → 2 ≤ n ∧ n ≤ 9 ∧ v.toNat - 248 ≤ 2 ^ (8 * (n - 1)) - 1 ∧
      ∀ m, 2 ≤ m → m < n → 2 ^ (8 * (m - 1)) - 1 < v.toNat - 248)

/-- R71: ENC.LOAD in IDLE latches the size and the number the bytes are cut from, offers the first byte, and emits none. -/
def Obligations.EncLoadLatchesValue : Prop :=
  ∀ (v : Word) (s : State), s.resetDone = true → s.enc.state = .idle → ∃ t, exec (.encLoad v) s = .next t ∧
    t.enc.state = .emit ∧ t.enc.size.toNat = encodedSize v ∧ t.enc.left.toNat = encodedSize v ∧
    (v.toNat < 248 → t.enc.body = v) ∧ (248 ≤ v.toNat → t.enc.body.toNat = v.toNat - 248) ∧
    t.outcome = .ok .none ∧ t.encOut = s.encOut ∧
    t.enc.isIdle = false ∧ t.enc.outValid = true ∧ some t.enc.nextByte = (encodeBytes v).head? ∧
    t.enc.outLast = decide (encodedSize v = 1)

/-- R72, for the states of R32: ENC.EMIT appends the header or single byte first and the tail bytes from the most significant down,
and returns to IDLE with the last one; the size and the body stay. -/
def Obligations.EncEmitWritesNextByte : Prop :=
  ∀ s : State, s.resetDone = true → s.enc.state = .emit → s.enc.inRange → ∃ t b, exec .encEmit s = .next t ∧
    (s.enc.left = s.enc.size → s.enc.size = 1 → b = s.enc.body.toNat % 256) ∧
    (s.enc.left = s.enc.size → s.enc.size ≠ 1 → b = 248 + (s.enc.size.toNat - 2)) ∧
    (s.enc.left ≠ s.enc.size → b = s.enc.body.toNat / 2 ^ (8 * (s.enc.left.toNat - 1)) % 256) ∧
    t.encOut = s.encOut ++ [BitVec.ofNat 8 b] ∧
    t.outcome = .ok (.byte (BitVec.ofNat 8 b) (decide (s.enc.left = 1))) ∧
    t.enc = { s.enc with left := s.enc.left - 1, state := if s.enc.left = 1 then .idle else .emit } ∧
    (s.enc.left = 1 → t.enc.outValid = false ∧ t.enc.isIdle = true)

/-- R73: ENC.FULL in EMIT answers TooFewBytes and enters FAULT; nothing is emitted and the other elements stay. -/
def Obligations.EncFullEntersFault : Prop :=
  ∀ s : State, s.resetDone = true → s.enc.state = .emit → ∃ t, exec .encFull s = .next t ∧
    t.enc = { s.enc with state := .fault } ∧ t.outcome = .err .tooFewBytes ∧ t.encErr = true ∧ t.encOut = s.encOut ∧
    t.enc.faulted = true ∧ t.enc.cause = 1 ∧ t.enc.outValid = false ∧ t.enc.isIdle = false ∧
    ∀ i u, (∃ v, i = .encLoad v) ∨ i = .encEmit ∨ i = .encFull → exec i t = .next u →
      u.outcome = .notAccepted ∧ u.enc = t.enc ∧ u.encOut = t.encOut

/-- R75, with NotAccepted as a step that changes nothing but the answer (log entry 2): ENC.LOAD in EMIT or FAULT, and ENC.EMIT and
ENC.FULL in IDLE or FAULT. -/
def Obligations.EncOperationsOutsideTheirState : Prop :=
  ∀ (v : Word) (s : State), s.resetDone = true →
    (s.enc.state = .emit ∨ s.enc.state = .fault → exec (.encLoad v) s = .next { s with outcome := .notAccepted }) ∧
    (s.enc.state = .idle ∨ s.enc.state = .fault → exec .encEmit s = .next { s with outcome := .notAccepted }) ∧
    (s.enc.state = .idle ∨ s.enc.state = .fault → exec .encFull s = .next { s with outcome := .notAccepted })

/-- R80: in EMIT the offered byte and `last` are what ENC.EMIT returns from the same state; outside EMIT `last` is 0. -/
def Obligations.OfferedByteIsEmittedByte : Prop :=
  ∀ (p : PortIn) (s : State), s.resetDone = true →
    (s.enc.state = .emit → ∃ t, exec .encEmit s = .next t ∧
      t.outcome = .ok (.byte (s.outputs p).encOutByte (s.outputs p).encOutLast) ∧
      (s.outputs p).encOutLast = decide (s.enc.left = 1)) ∧
    (s.enc.state ≠ .emit → (s.outputs p).encOutLast = false)

/-! ## The signed mapping -/

/-- R105: SGN.TOU is 2x for x ≥ 0 and -2x - 1 for x < 0, in every state, and changes nothing but the answer. -/
def Obligations.SgnTouMapsSignedToUnsigned : Prop :=
  ∀ (x : Word) (s : State), ∃ u : Word, exec (.sgnTou x) s = .next { s with outcome := .ok (.unsigned u) } ∧
    (0 ≤ x.toInt → (u.toNat : Int) = 2 * x.toInt) ∧ (x.toInt < 0 → (u.toNat : Int) = -2 * x.toInt - 1)

/-- R106: SGN.TOS is u / 2 for even u and -(u + 1) / 2 for odd u, in every state, and changes nothing but the answer. -/
def Obligations.SgnTosMapsUnsignedToSigned : Prop :=
  ∀ (u : Word) (s : State), ∃ x : Word, exec (.sgnTos u) s = .next { s with outcome := .ok (.signed x) } ∧
    (u.toNat % 2 = 0 → x.toInt = (u.toNat / 2 : Nat)) ∧ (u.toNat % 2 = 1 → x.toInt = -(((u.toNat + 1) / 2 : Nat) : Int))

/-- R107: the two functions are inverse to each other on all 64-bit values, -124 to 123 map to at most 247, and the spot values. -/
def Obligations.SignedMappingsAreInverse : Prop :=
  (∀ (x : Word) (s : State),
    (∃ u t, exec (.sgnTou x) s = .next t ∧ t.outcome = .ok (.unsigned u) ∧
      ∃ w, exec (.sgnTos u) t = .next w ∧ w.outcome = .ok (.signed x)) ∧
    (∃ y t, exec (.sgnTos x) s = .next t ∧ t.outcome = .ok (.signed y) ∧
      ∃ w, exec (.sgnTou y) t = .next w ∧ w.outcome = .ok (.unsigned x)) ∧
    (-124 ≤ x.toInt → x.toInt ≤ 123 →
      ∃ u : Word, exec (.sgnTou x) s = .next { s with outcome := .ok (.unsigned u) } ∧ u.toNat ≤ 247)) ∧
  toUnsigned 0 = 0 ∧ toUnsigned 1 = 2 ∧ toUnsigned (-1) = 1 ∧ toUnsigned 127 = 0xFE ∧ toUnsigned (-128) = 0xFF

/-! ## Rules over all operations -/

/-- R95 (with R7): after the first RESET every finite sequence of operations, from every state and with every operand, answers a next
state. -/
def Obligations.EveryOperationAnswers : Prop :=
  ∀ (is : List Instr) (s : State), s.resetDone = true → ∃ t, runOps is s = .next t ∧ t.resetDone = true

/-- R116 (with R7, R75, R88; NotAccepted as a step is log entry 2, a row as DEC.ACCEPT of its first byte log entry 3): the operations
outside their acceptance condition, and only they, are NotAccepted, and nothing but the answer changes. -/
def Obligations.NotAcceptedExactlyOutsideAcceptance : Prop :=
  ∀ (i : Instr) (s t : State), exec i s = .next t →
    (t.outcome = .notAccepted ↔
      (((∃ b, i = .decAccept b) ∨ i.span ≠ []) ∧ (s.dec.state = .ready ∨ s.dec.state = .failed)) ∨
      ((∃ v, i = .encLoad v) ∧ (s.enc.state = .emit ∨ s.enc.state = .fault)) ∨
      ((i = .encEmit ∨ i = .encFull) ∧ (s.enc.state = .idle ∨ s.enc.state = .fault))) ∧
    (t.outcome = .notAccepted → t = { s with outcome := .notAccepted })

/-- R119 (with R111 and R118; a row as DEC.ACCEPT of its first byte is log entry 3): which operation raises which error, and the exact
state change of each. The byte
that raised ValueTooLarge has joined DEC_IN and its sum is in dec_acc. -/
def Obligations.ErrorsArePrecise : Prop :=
  ∀ (i : Instr) (s t : State) (k : ErrorKind), exec i s = .next t → t.outcome = .err k →
    (k = .valueTooLarge → t.dec.state = .failed ∧ t.decErr = true ∧ t.dec.faulted = true ∧ t.dec.cause = 2 ∧ t.dec.inReady = false ∧
      t.dec.done = false ∧ t.dec.value = s.dec.value ∧ t.enc = s.enc ∧
      (∀ b, i = .decAccept b ∨ i.span.head? = some b → t.dec = { s.dec with state := .failed, acc := accumulate s.dec.acc b } ∧ t.decIn = s.decIn ++ [b])) ∧
    (k = .tooFewBytes → i = .encFull ∧ t.encErr = true ∧ t.enc = { s.enc with state := .fault } ∧ t.enc.faulted = true ∧ t.enc.cause = 1 ∧
      t.enc.outValid = false ∧ t.enc.isIdle = false ∧ t.dec = s.dec) ∧
    (k = .notReady → i = .decValue ∧ t = { s with outcome := .err .notReady } ∧
      ∀ p : PortIn, p.decRd = true → (s.outputs p).decRdErr = true) ∧
    k ≠ .invalidRange ∧
    (k = .valueTooLarge → (∃ b, i = .decAccept b) ∨ i.span ≠ [])

/-- R120 and R121: only RESET and the unit's own reset change FAILED or FAULT, or anything else of the unit in it; they leave it for
NOT_STARTED or IDLE, and in FAILED DEC.VALUE answers NotReady and never a value. -/
def Obligations.TerminalStatesAreSticky : Prop :=
  ∀ (i : Instr) (s t : State), exec i s = .next t →
    (s.dec.state = .failed → i ≠ .reset → i ≠ .decReset → t.dec = s.dec ∧ t.decIn = s.decIn) ∧
    (s.enc.state = .fault → i ≠ .reset → i ≠ .encReset → t.enc = s.enc ∧ t.encOut = s.encOut) ∧
    (s.dec.state = .failed → i = .reset ∨ i = .decReset → t.dec.state = .notStarted) ∧
    (s.enc.state = .fault → i = .reset ∨ i = .encReset → t.enc.state = .idle) ∧
    (s.dec.state = .failed → i = .decValue → t.outcome = .err .notReady) ∧
    (s.dec.state = .failed → ∀ v, t.outcome ≠ .ok (.value v))

/-- R2, R48 and R109: THE FRAME of every operation. What an operation does not drive stays: DEC operations and wire-format rows leave ENC,
ENC operations leave DEC, ENC.SIZE and SGN leave both. The clauses on the model's own fields are the model's choices: only a row's own
tail joins the host's script (log entries 1 and 3), and no operation touches the draw counter (log entry 6). -/
def Obligations.OperationsChangeOnlyTheirUnit : Prop :=
  ∀ (i : Instr) (s t : State), exec i s = .next t →
    (drivesDec i = false → t.dec = s.dec ∧ t.decErr = s.decErr ∧ t.decIn = s.decIn) ∧
    (drivesEnc i = false → t.enc = s.enc ∧ t.encErr = s.encErr ∧ t.encOut = s.encOut) ∧
    (i ≠ .reset → t.resetDone = s.resetDone) ∧ t.draw = s.draw ∧ (i.span = [] → t.host = s.host) ∧
    (∀ b bs, i.span = b :: bs → t.host = s.host ∨ t.host = .feed bs :: s.host) ∧
    (i = .decValue → t.dec = s.dec ∧ t.decErr = s.decErr ∧ t.decIn = s.decIn) ∧
    (i = .decReset → t.decIn = s.decIn) ∧ (i = .encReset → t.encOut = s.encOut) ∧
    (i ≠ .encEmit → s.resetDone = true → t.encOut = s.encOut) ∧
    (i ≠ .reset → i ≠ .decReset → t.outcome ≠ .err .valueTooLarge → t.decErr = s.decErr) ∧
    (i ≠ .reset → i ≠ .encReset → t.outcome ≠ .err .tooFewBytes → t.encErr = s.encErr)

/-- R48: what an operation of one unit does and answers depends on that unit alone, for two states that share it. -/
def Obligations.UnitsDoNotObserveEachOther : Prop :=
  ∀ (i : Instr) (s s' t : State), s.resetDone = true → s'.resetDone = true → exec i s = .next t →
    (drivesEnc i = false → s'.dec = s.dec → ∃ t', exec i s' = .next t' ∧ t'.dec = t.dec ∧ t'.outcome = t.outcome) ∧
    (drivesDec i = false → s'.enc = s.enc → ∃ t', exec i s' = .next t' ∧ t'.enc = t.enc ∧ t'.outcome = t.outcome)

/-- R37 and R131: no operation takes back a byte of ENC_OUT or DEC_IN. -/
def Obligations.StreamsOnlyGrow : Prop :=
  ∀ (i : Instr) (s t : State), s.resetDone = true → exec i s = .next t → s.encOut <+: t.encOut ∧ s.decIn <+: t.decIn

/-- R30: two states that differ only in fields outside their meaningful state answer alike and stay alike, under every operation. -/
def Obligations.MeaninglessFieldsAreUnobservable : Prop :=
  ∀ (i : Instr) (s s' t : State), s.alike s' → exec i s = .next t →
    ∃ t', exec i s' = .next t' ∧ t.alike t'

/-! ## Invariants -/

/-- R31 and R32 as an invariant: every step keeps the ranges of DEC and ENC, from every state that has them. -/
def Obligations.StepKeepsRanges : Prop :=
  ∀ s t : State, s.inRange → step s = .next t → t.inRange

/-- The ranges of R31 and R32 hold after reset. -/
def Obligations.ResetIsInRange : Prop := State.reset.inRange

/-- R16, R17, R21, R22, R93 and R139 as an invariant: every step keeps the agreement between the units and the bytes last taken and emitted. -/
def Obligations.StepKeepsStreamsTracked : Prop :=
  ∀ s t : State, s.tracksStreams → step s = .next t → t.tracksStreams

/-- The units agree with the empty streams after reset. -/
def Obligations.ResetTracksStreams : Prop := State.reset.tracksStreams

/-! ## Steps, requests and clock edges -/

/-- R5 and log entries 1, 6 and 7: a step runs exactly the instruction the host's next request decodes to, on the state in which the error
pulses are down, the draw counter is advanced and the request is taken; bytes of a span after the encoding come next. R67: for a
clock edge a step is that edge, on the state with the same bookkeeping. -/
def Obligations.StepRunsDecodedInstruction : Prop :=
  ∀ (s : State) (later : List HostAction),
    (∀ (r : Request) (i : Instr) (rest : List Byte),
      s.host = .request r :: later → decode s.enc.state r = .op i rest → i.wellFormed = true →
      step s = exec i { s with
        decErr := false
        encErr := false
        draw := s.draw + 1
        host := if rest = [] then later else .request (.wire rest) :: later }) ∧
    (∀ p : PortIn, s.host = .edge p :: later →
      step s = clockEdge p { s with decErr := false, encErr := false, draw := s.draw + 1, host := later })

/-- R6 (with log entry 1): while the host does nothing, or drives no strobe, the two units and the streams stay as they are. -/
def Obligations.NothingHappensWithoutTheHost : Prop :=
  ∀ (s : State) (r : Request) (later : List HostAction) (why : NoRequest),
    (s.host = [] → ∃ t, step s = .next t ∧ t.dec = s.dec ∧ t.enc = s.enc ∧ t.decIn = s.decIn ∧ t.encOut = s.encOut ∧ t.host = []) ∧
    (s.host = .request r :: later → decode s.enc.state r = .reject why →
      ∃ t, step s = .next t ∧ t.dec = s.dec ∧ t.enc = s.enc ∧ t.decIn = s.decIn ∧ t.encOut = s.encOut ∧ t.host = later)

/-- R52, R53 and R66: decoding the encoded form of a well-formed instruction gives it back, whatever the state of ENC. That the vectors of
ENC.LOAD, ENC.FULL and ENC.EMIT name their operation also in a state where R66 ignores them is the model's choice (log entry 10). -/
def Obligations.DecodeOfEncodeIsIdentity : Prop :=
  ∀ (i : Instr) (st : EncState), i.wellFormed = true → decode st (encode i) = .op i []

/-- R50, R53, R60 and R61: every span that holds a whole encoding decodes, to a well-formed row whose bytes are the first
`wireLength` bytes of the span, told from its first byte alone, and the rest of the span is kept. -/
def Obligations.EveryFirstByteHasARow : Prop :=
  ∀ (b : Byte) (bs : List Byte) (st : EncState), wireLength b ≤ bs.length + 1 →
    ∃ i rest, decode st (.wire (b :: bs)) = .op i rest ∧ i.wellFormed = true ∧ i.span ++ rest = b :: bs ∧
      i.span.length = wireLength b

/-- R52, R53 and R66: some words of the spec, read bit by bit. -/
def Obligations.SpecWordsDecode : Prop :=
  decode .idle (.dec 0b001 0b11111000) = .op (.decAccept 0xF8) [] ∧
  decode .idle (.enc 0b00100 0x1F9) = .op (.encLoad 505) [] ∧
  decode .emit (.enc 0b00111 0) = .op .encFull [] ∧
  decode .idle (.dec 0b100 0) = .op .reset [] ∧
  decode .fault (.wire [0xF9, 0x01, 0x01, 0x77]) = .op (.w3 0x0101) [0x77]

/-- R66 and R67: at an edge after the first RESET, a read (dec_rd = 1) is DEC.VALUE on the state from before the edge, ahead of whatever
else the edge does, and the whole of it where no other operation is chosen; without a read such an edge does nothing, and that a request which is not accepted leaves the recorded outcome too is the model's choice
(log entry 11). RESET goes before the unit resets and these before the data operations, ENC.FULL before
ENC.EMIT, and each unit does at most one state-changing operation, which reads the state from before the edge. -/
def Obligations.EdgePriorities : Prop :=
  ∀ (p : PortIn) (s : State), s.resetDone = true →
    (p.decRd = true → ∃ u, exec .decValue s = .next u ∧ clockEdge p s = clockEdge { p with decRd := false } u) ∧
    (p.rst = false → p.decClr = false → p.decInValid = false ∨ s.dec.inReady = false → p.encClr = false →
      (s.enc.state = .idle → p.encLoad = false) → (s.enc.state = .emit → p.encOutFull = false ∧ p.encOutReady = false) →
      clockEdge p s = if p.decRd = true then exec .decValue s else .next s) ∧
    ∃ t, clockEdge p s = .next t ∧
    (p.rst = true → t.dec = State.reset.dec ∧ t.enc = State.reset.enc) ∧
    (p.rst = false →
      (p.decClr = true → t.dec = State.reset.dec) ∧
      (p.decClr = false → p.decInValid = true → s.dec.inReady = true →
        ∃ u, exec (.decAccept p.decInByte) s = .next u ∧ t.dec = u.dec ∧ t.decIn = u.decIn) ∧
      (p.decClr = false → p.decInValid = false ∨ s.dec.inReady = false → t.dec = s.dec ∧ t.decIn = s.decIn) ∧
      (p.encClr = true → t.enc = State.reset.enc ∧ t.encOut = s.encOut) ∧
      (p.encClr = false → s.enc.state = .idle → p.encLoad = true →
        ∃ u, exec (.encLoad p.encValue) s = .next u ∧ t.enc = u.enc ∧ t.encOut = s.encOut) ∧
      (p.encClr = false → s.enc.state = .idle → p.encLoad = false → t.enc = s.enc ∧ t.encOut = s.encOut) ∧
      (p.encClr = false → s.enc.state = .emit → p.encOutFull = true →
        t.enc = { s.enc with state := .fault } ∧ t.encOut = s.encOut) ∧
      (p.encClr = false → s.enc.state = .emit → p.encOutFull = false → p.encOutReady = true →
        ∃ u, exec .encEmit s = .next u ∧ t.enc = u.enc ∧ t.encOut = u.encOut) ∧
      (p.encClr = false → s.enc.state = .emit → p.encOutFull = false → p.encOutReady = false →
        t.enc = s.enc ∧ t.encOut = s.encOut) ∧
      (p.encClr = false → s.enc.state = .fault → t.enc = s.enc ∧ t.encOut = s.encOut))

/-- R65: after a step the error pulses are 1 exactly when that step entered FAILED, or FAULT; the outputs dec_err and enc_err show the
pulse of their unit, whatever the inputs. That the pulses are fields, and a step a cycle, is log entry 7. -/
def Obligations.ErrorPulsesMarkTheirStep : Prop :=
  (∀ s t : State, step s = .next t →
    (t.decErr = true ↔ s.dec.state ≠ .failed ∧ t.dec.state = .failed) ∧
    (t.encErr = true ↔ s.enc.state ≠ .fault ∧ t.enc.state = .fault)) ∧
  ∀ (p : PortIn) (s : State), (s.outputs p).decErr = s.decErr ∧ (s.outputs p).encErr = s.encErr

/-- R24 and R25: the status outputs are these functions of the state, and DEC.ACCEPT's `done` is dec_done after it. R65: enc_size_q is
EncodedSize of enc_value, the result of ENC.SIZE. -/
def Obligations.StatusOutputs : Prop :=
  ∀ (p : PortIn) (s : State),
    ((s.outputs p).decInReady = true ↔ s.dec.state = .notStarted ∨ s.dec.state = .awaitingTail) ∧
    ((s.outputs p).decDone = true ↔ s.dec.state = .ready) ∧
    ((s.outputs p).decFault = true ↔ s.dec.state = .failed) ∧
    (s.outputs p).decCause = (if s.dec.state = .failed then 2 else 0) ∧
    ((s.outputs p).encIdle = true ↔ s.enc.state = .idle) ∧
    ((s.outputs p).encOutValid = true ↔ s.enc.state = .emit) ∧
    ((s.outputs p).encOutLast = true ↔ s.enc.state = .emit ∧ s.enc.left = 1) ∧
    ((s.outputs p).encFault = true ↔ s.enc.state = .fault) ∧
    (s.outputs p).encCause = (if s.enc.state = .fault then 1 else 0) ∧
    (∀ b t d, exec (.decAccept b) s = .next t → t.outcome = .ok (.done d) → (t.outputs p).decDone = d) ∧
    (s.dec.state = .ready → (s.outputs p).decValueQ = s.dec.value) ∧
    ((s.outputs p).decRdErr = true ↔ p.decRd = true ∧ s.dec.state ≠ .ready) ∧
    (s.outputs p).encSizeQ.toNat = encodedSize p.encValue ∧
    (s.resetDone = true →
      exec (.encSize p.encValue) s = .next { s with outcome := .ok (.size (s.outputs p).encSizeQ.toNat) })

/-! ## Encode, Decode and the pseudo-operations -/

/-- R57: the length of a value's encoding, by the table of ranges. -/
def Obligations.EncodedLengthRanges : Prop :=
  ∀ v : Word, (encodeBytes v).length =
    if v.toNat ≤ 247 then 1 else if v.toNat ≤ 503 then 2 else if v.toNat ≤ 65783 then 3
    else if v.toNat ≤ 16777463 then 4 else if v.toNat ≤ 4294967543 then 5 else if v.toNat ≤ 1099511628023 then 6
    else if v.toNat ≤ 281474976710903 then 7 else if v.toNat ≤ 72057594037928183 then 8 else 9

/-- R77: ENC.LOAD and then exactly `EncodedSize(v)` ENC.EMITs emit `Encode(v)` and leave ENC in IDLE, and ENC leaves EMIT no earlier;
the pseudo-operation ENCODE returns those bytes, and does not start when ENC is not idle. -/
def Obligations.EncodeEmitsReferenceBytes : Prop :=
  ∀ (v : Word) (s : State), s.resetDone = true →
    (s.enc.state = .idle →
      (∃ t, runOps (.encLoad v :: List.replicate (encodedSize v) .encEmit) s = .next t ∧
        t.encOut = s.encOut ++ encodeBytes v ∧ t.enc.state = .idle ∧ encodeOp v s = .next (t, .ok (encodeBytes v))) ∧
      ∀ k, k < encodedSize v → ∃ t, runOps (.encLoad v :: List.replicate k .encEmit) s = .next t ∧
        t.encOut = s.encOut ++ (encodeBytes v).take k ∧ t.enc.state = .emit) ∧
    (s.enc.state ≠ .idle → ∃ t, encodeOp v s = .next (t, .notStarted) ∧ t.enc = s.enc ∧ t.encOut = s.encOut)

/-- R78: ENCODE.CAP with room for `cap` bytes succeeds when `Encode(v)` fits, and otherwise answers TooFewBytes after exactly the first
`cap` bytes, with ENC in FAULT. -/
def Obligations.EncodeCapFailsAfterCapBytes : Prop :=
  ∀ (v : Word) (cap : Nat) (s : State), s.resetDone = true → s.enc.state = .idle → ∃ t r, encodeCap v cap s = .next (t, r) ∧
    (encodedSize v ≤ cap → r = .ok (encodeBytes v) ∧ t.enc.state = .idle ∧ t.encOut = s.encOut ++ encodeBytes v) ∧
    (cap < encodedSize v → r = .err .tooFewBytes ∧ t.enc.state = .fault ∧ t.encOut = s.encOut ++ (encodeBytes v).take cap)

/-- R79: the laws of the encoder: length, first byte, canonical tail, injective, prefix-free. -/
def Obligations.EncoderLaws : Prop :=
  (∀ v : Word, (encodeBytes v).length = encodedSize v) ∧
  (∀ (v : Word) (b : Byte) (bs : List Byte), encodeBytes v = b :: bs →
    (b.toNat < 248 ↔ encodedSize v = 1) ∧ (encodedSize v ≠ 1 → b.toNat = 248 + (encodedSize v - 2))) ∧
  (∀ v : Word, 3 ≤ encodedSize v → 2 ^ (8 * (encodedSize v - 2)) ≤ bigEndian ((encodeBytes v).drop 1) ∧ (encodeBytes v)[1]? ≠ some 0) ∧
  (∀ v w : Word, encodeBytes v = encodeBytes w → v = w) ∧
  (∀ v w : Word, encodeBytes v <+: encodeBytes w → encodeBytes v = encodeBytes w)

/-- R97: the bytes that ENC emits for `v`, given to a DEC that has not started, complete on the last byte and not before, with the value
`v`; and Decode of Encode is the value and its size. -/
def Obligations.RoundTrip : Prop :=
  ∀ (v : Word) (s : State), s.resetDone = true → s.dec.state = .notStarted →
    decodeBytes (encodeBytes v) = .ok (v, encodedSize v) ∧
    (∃ t, runOps ((encodeBytes v).map .decAccept) s = .next t ∧ t.dec.state = .ready ∧ t.outcome = .ok (.done true) ∧
      exec .decValue t = .next { t with outcome := .ok (.value v) }) ∧
    ∀ k, k < encodedSize v → ∃ t, runOps (((encodeBytes v).take k).map .decAccept) s = .next t ∧ t.dec.state ≠ .ready

/-- R93: DECODE on the units agrees with the function Decode on every byte sequence, from every state after the first RESET; the value
comes with the number of bytes consumed, and DEC took exactly those bytes; an error leaves DEC where the rule says. -/
def Obligations.DecodeAgreesWithReference : Prop :=
  ∀ (span : List Byte) (s : State), s.resetDone = true → ∃ t, decodeOp span s = .next (t, decodeBytes span) ∧
    (∀ v n, decodeBytes span = .ok (v, n) → t.dec.state = .ready ∧ t.dec.value = v ∧ t.decIn = s.decIn ++ span.take n) ∧
    (decodeBytes span = .err .tooFewBytes → t.dec.state = .notStarted ∨ t.dec.state = .awaitingTail) ∧
    (decodeBytes span = .err .valueTooLarge → t.dec.state = .failed)

/-- R92: DEC.FEEDCHUNKS equals DEC.FEED of the concatenation, in every state: the state, the status, the count and the error. -/
def Obligations.ChunksFeedLikeTheirConcatenation : Prop :=
  ∀ (chunks : List (List Byte)) (s : State), feedChunks chunks s = decFeed chunks.flatten s

/-- R96 and R98: however a byte sequence is split, feeding it to a DEC that has not started gives Decode's result with NotDone standing
for TooFewBytes, and consumes exactly one encoding, or everything. -/
def Obligations.StreamingEquivalence : Prop :=
  ∀ (chunks : List (List Byte)) (s : State), s.resetDone = true → s.dec.state = .notStarted →
    ∃ t r, feedChunks chunks s = .next (t, r) ∧
    (∀ v n, decodeBytes chunks.flatten = .ok (v, n) →
      r = { status := .done, consumed := n, error := none } ∧ exec .decValue t = .next { t with outcome := .ok (.value v) }) ∧
    (decodeBytes chunks.flatten = .err .valueTooLarge →
      r = { status := .failed, consumed := 9, error := some .valueTooLarge } ∧
      exec .decValue t = .next { t with outcome := .err .notReady }) ∧
    (decodeBytes chunks.flatten = .err .tooFewBytes →
      r = { status := .notDone, consumed := chunks.flatten.length, error := none } ∧
      exec .decValue t = .next { t with outcome := .err .notReady })

/-- R94: DECODE.BUF checks its range first, and a violation leaves the block untouched; otherwise it decodes exactly the range. -/
def Obligations.DecodeBufChecksRange : Prop :=
  ∀ (buf : List Byte) (offset count : Int) (s : State),
    ((offset < 0 ∨ count < 1 ∨ (buf.length : Int) < offset + count) → decodeBuf buf offset count s = .next (s, .err .invalidRange)) ∧
    (∀ before range after : List Byte, buf = before ++ range ++ after → offset = before.length → count = range.length →
      range ≠ [] → s.resetDone = true →
      ∃ t, decodeBuf buf offset count s = .next (t, decodeBytes range) ∧ decodeBytes range ≠ .err .invalidRange)

/-- R100 (with R59): re-encoding a decoded value gives the consumed bytes back exactly when they are canonical: at most two bytes, or a
first tail byte that is not 0; over-long bytes re-encode to fewer. -/
def Obligations.ReencodingNeedsCanonicalInput : Prop :=
  ∀ (span : List Byte) (v : Word) (n : Nat), decodeBytes span = .ok (v, n) →
    (encodeBytes v = span.take n ↔ n ≤ 2 ∨ span[1]? ≠ some 0) ∧ (3 ≤ n → span[1]? = some 0 → encodedSize v < n)

/-- R108: ENCODE.S is ENCODE of SGN.TOU, DECODE.S is DECODE and then the operation SGN.TOS on its value, errors and counts passed through;
a signed value through both comes back. -/
def Obligations.SignedRoundTrip : Prop :=
  ∀ (x : Word) (s s' : State), s.resetDone = true → s'.resetDone = true →
    (s.enc.state = .idle → ∃ bytes t t', encodeSigned x s = .next (t, .ok bytes) ∧ bytes = encodeBytes (toUnsigned x) ∧
      decodeSigned bytes s' = .next (t', .ok (x, bytes.length))) ∧
    encodeSigned x s = encodeOp (toUnsigned x) s ∧
    ∀ span : List Byte, ∃ t r, decodeOp span s' = .next (t, r) ∧
      (∀ k, r = .err k → decodeSigned span s' = .next (t, .err k)) ∧
      ∀ u n, r = .ok (u, n) → ∃ w, exec (.sgnTos u) t = .next w ∧ decodeSigned span s' = .next (w, .ok (toSigned u, n))

/-! ## Instances -/

/-- R33: an operation on one instance leaves every other as it is, and does on its own what it does on a single block. -/
def Obligations.InstancesShareNothing : Prop :=
  ∀ (k k' : Bank) (n : Nat) (i : Instr), k.issue n i = .next k' →
    k'.blocks.length = k.blocks.length ∧
    (∃ s t, k.blocks[n]? = some s ∧ exec i s = .next t ∧ k'.blocks[n]? = some t) ∧
    ∀ m, m ≠ n → k'.blocks[m]? = k.blocks[m]?

/-- R46 and R135, with the model's reading of what drives a unit (log entry 9: DEC.VALUE drives DEC, ENC.SIZE and SGN drive nothing): a
turn, of any number of requests, in which some two drive one unit of one instance is refused; a turn on existing instances after
their first RESET in which no two do has a meaning. -/
def Obligations.ConcurrentUseIsRefused : Prop :=
  ∀ (k : Bank) (rs : List (Nat × Instr)),
    (∀ (n : Nat) (i j : Instr) (before between after : List (Nat × Instr)),
      rs = before ++ (n, i) :: between ++ (n, j) :: after →
      drivesDec i = true ∧ drivesDec j = true ∨ drivesEnc i = true ∧ drivesEnc j = true →
      k.turn rs = .refused .concurrentUse) ∧
    ((∀ r ∈ rs, r.1 < k.blocks.length) → (∀ s ∈ k.blocks, s.resetDone = true) →
      rs.Pairwise (fun a b => a.1 ≠ b.1 ∨
        (drivesDec a.2 = false ∨ drivesDec b.2 = false) ∧ (drivesEnc a.2 = false ∨ drivesEnc b.2 = false)) →
      ∃ k', k.turn rs = .next k')

/-! ## Feeding, step by step, and the time before the first RESET -/

/-- R5 and R91: one step of a DEC.FEED is one DEC.ACCEPT, of the next byte, while bytes are left and DEC accepts; otherwise the feed ends
and nothing happens. A step's bookkeeping is that of log entries 1, 6 and 7. -/
def Obligations.FeedTakesOneBytePerStep : Prop :=
  ∀ (span : List Byte) (later : List HostAction) (s c : State), s.host = .feed span :: later → s.resetDone = true →
    c = { s with decErr := false, encErr := false, draw := s.draw + 1, host := later } →
    (∀ b bs, span = b :: bs → s.dec.inReady = true → ∃ u, exec (.decAccept b) c = .next u ∧
      step s = .next { u with host := if u.dec.inReady = true ∧ bs ≠ [] then .feed bs :: later else later }) ∧
    (span = [] ∨ s.dec.inReady = false → step s = .next c)

/-- R91: the steps of a DEC.FEED lead to the state, the status and the count that the pseudo-operation gives, with one step for each
byte it consumes. -/
def Obligations.FeedRunsToItsResult : Prop :=
  ∀ (span : List Byte) (later : List HostAction) (s : State), s.host = .feed span :: later → s.resetDone = true →
    span ≠ [] → s.dec.inReady = true →
    ∃ t u r, decFeed span s = .next (t, r) ∧ runSteps r.consumed s = .next u ∧
      u.dec = t.dec ∧ u.enc = t.enc ∧ u.decIn = s.decIn ++ span.take r.consumed ∧ u.encOut = s.encOut ∧ u.host = later ∧
      r.status = u.dec.status ∧ (r.error = some .valueTooLarge ↔ u.dec.state = .failed) ∧
      (r.consumed = span.length ∨ u.dec.inReady = false)

/-- R132 (log entry 5): before the first RESET no pseudo-operation on the block has a behaviour, and no step of a feed has one; the range
check of DECODE.BUF is the host's own (R94). -/
def Obligations.PseudoOperationsNeedReset : Prop :=
  ∀ (s : State) (v : Word) (cap : Nat) (span : List Byte) (chunks : List (List Byte)), s.resetDone = false →
    encodeOp v s = .fault .beforeFirstReset ∧ encodeCap v cap s = .fault .beforeFirstReset ∧
    encodeSigned v s = .fault .beforeFirstReset ∧ decFeed span s = .fault .beforeFirstReset ∧
    feedChunks chunks s = .fault .beforeFirstReset ∧ decodeOp span s = .fault .beforeFirstReset ∧
    decodeSigned span s = .fault .beforeFirstReset ∧
    (∀ before range after : List Byte, range ≠ [] →
      decodeBuf (before ++ range ++ after) before.length range.length s = .fault .beforeFirstReset) ∧
    ∀ later, s.host = .feed span :: later → step s = .fault .beforeFirstReset
end

