-- ==== Sys2Proof/Laws/Codec.lean ====
section
/-! SUPPORT. The numbers that byte sequences spell (R54, R56), and the length selector (R70). -/

namespace Sys2Proof

theorem bigEndian_nil : bigEndian [] = 0 := rfl

/-- The step of the decoder's accumulation (R54). -/
theorem bigEndian_append_singleton (s : List Byte) (b : Byte) : bigEndian (s ++ [b]) = bigEndian s * 256 + b.toNat := by
  simp [bigEndian]

theorem bigEndian_cons (b : Byte) (s : List Byte) : bigEndian (b :: s) = b.toNat * 256 ^ s.length + bigEndian s := by
  induction s using List.reverseRecOn with
  | nil => simp [bigEndian]
  | append_singleton s c ih =>
    rw [← List.cons_append, bigEndian_append_singleton, ih, bigEndian_append_singleton]
    simp [Nat.pow_succ]; ring

theorem bigEndian_append (s t : List Byte) : bigEndian (s ++ t) = bigEndian s * 256 ^ t.length + bigEndian t := by
  induction s with
  | nil => simp [bigEndian_nil]
  | cons b s ih => simp only [List.cons_append, bigEndian_cons, ih, List.length_append, Nat.pow_add]; ring

theorem bigEndian_lt (s : List Byte) : bigEndian s < 256 ^ s.length := by
  induction s with
  | nil => simp [bigEndian_nil]
  | cons b s ih =>
    rw [bigEndian_cons, List.length_cons, Nat.pow_succ]
    have := b.isLt
    nlinarith

/-- Bytes of one length that spell one number are the same bytes. -/
theorem bigEndian_injective : ∀ {s t : List Byte}, s.length = t.length → bigEndian s = bigEndian t → s = t
  | [], [], _, _ => rfl
  | b :: s, c :: t, hl, h => by
    have hl : s.length = t.length := by simpa using hl
    rw [bigEndian_cons, bigEndian_cons, hl] at h
    have hs := bigEndian_lt s
    have ht := bigEndian_lt t
    rw [hl] at hs
    have hbc : b.toNat = c.toNat := by
      have := congrArg (· / 256 ^ t.length) h
      simpa [Nat.mul_add_div, Nat.div_eq_of_lt, Nat.add_div_of_dvd_right, Nat.mul_comm, hs, ht] using this
    rw [BitVec.eq_of_toNat_eq hbc, bigEndian_injective hl (by rw [hbc] at h; omega)]

theorem length_tailBytes {w : Nat} (k : Nat) (t : BitVec w) : (tailBytes k t).length = k := by
  induction k with
  | zero => rfl
  | succ k ih => simp [tailBytes, ih]

/-- The tail bytes of `t` spell the lowest `k` bytes of `t` (R52, R54). -/
theorem bigEndian_tailBytes {w : Nat} (k : Nat) (t : BitVec w) : bigEndian (tailBytes k t) = t.toNat % 256 ^ k := by
  induction k with
  | zero => simp [tailBytes, bigEndian_nil, Nat.mod_one]
  | succ k ih =>
    have h : (2 : Nat) ^ (8 * k) = 256 ^ k := by rw [Nat.pow_mul]
    rw [tailBytes, bigEndian_cons, length_tailBytes, ih, Nat.pow_succ, Nat.mod_mul]
    simp only [BitVec.toNat_setWidth, BitVec.toNat_ushiftRight, Nat.shiftRight_eq_div_pow, h]
    ring_nf

/-- Bytes are the tail bytes of the number they spell. -/
theorem tailBytes_ofNat {w : Nat} (s : List Byte) (h : 8 * s.length ≤ w) :
    tailBytes s.length (BitVec.ofNat w (bigEndian s)) = s := by
  apply bigEndian_injective (length_tailBytes _ _)
  have hs := bigEndian_lt s
  have h2 : 256 ^ s.length ≤ 2 ^ w := by
    rw [show (256 : Nat) = 2 ^ 8 from rfl, ← Nat.pow_mul]; exact Nat.pow_le_pow_right (by omega) h
  rw [bigEndian_tailBytes, BitVec.toNat_ofNat, Nat.mod_eq_of_lt (a := bigEndian s) (by omega), Nat.mod_eq_of_lt hs]

namespace Machine

/-- What the search of the length selector finds (R70). -/
theorem smallestSize_spec (t : Nat) : ∀ k n, n ≤ smallestSize t k n ∧ smallestSize t k n ≤ n + k ∧
    (smallestSize t k n < n + k → t ≤ 2 ^ (8 * (smallestSize t k n - 1)) - 1) ∧
    ∀ m, n ≤ m → m < smallestSize t k n → 2 ^ (8 * (m - 1)) - 1 < t
  | 0, n => ⟨le_refl _, le_refl _, fun h => absurd h (by simp [smallestSize]), fun m h1 h2 => by simp [smallestSize] at h2; omega⟩
  | k + 1, n => by
    unfold smallestSize
    split
    · next h => exact ⟨le_refl _, by omega, fun _ => h, fun m h1 h2 => by omega⟩
    · next h =>
      obtain ⟨h1, h2, h3, h4⟩ := smallestSize_spec t k (n + 1)
      refine ⟨by omega, by omega, fun h' => h3 (by omega), fun m hm1 hm2 => ?_⟩
      by_cases hmn : m = n
      · subst hmn; omega
      · exact h4 m (by omega) hm2

theorem lt_baseWord_iff (v : Word) : v < Config.baseWord ↔ v.toNat < 248 := by
  simp [BitVec.lt_def, Config.baseWord]

theorem lt_base_iff (b : Byte) : b < Config.base ↔ b.toNat < 248 := by
  simp [BitVec.lt_def, Config.base]

theorem maxTail_lt_iff (a : Word) : Config.maxTail < a ↔ 2 ^ 64 - 1 - 248 < a.toNat := by
  simp [BitVec.lt_def, Config.maxTail]

theorem sub_baseWord_toNat {v : Word} (h : 248 ≤ v.toNat) : (v - Config.baseWord).toNat = v.toNat - 248 := by
  have : Config.baseWord ≤ v := by simpa [BitVec.le_def, Config.baseWord] using h
  rw [BitVec.toNat_sub_of_le this]; rfl

theorem encodedSize_of_lt {v : Word} (h : v.toNat < 248) : encodedSize v = 1 := by
  simp [encodedSize, lt_baseWord_iff, h]

/-- The length selector's answer above 247 (R70): the smallest `N` from 2 to 9 whose tail holds `v - 248`. -/
theorem encodedSize_of_le {v : Word} (h : 248 ≤ v.toNat) :
    2 ≤ encodedSize v ∧ encodedSize v ≤ 9 ∧ v.toNat - 248 ≤ 2 ^ (8 * (encodedSize v - 1)) - 1 ∧
      ∀ m, 2 ≤ m → m < encodedSize v → 2 ^ (8 * (m - 1)) - 1 < v.toNat - 248 := by
  have hn : ¬ v.toNat < 248 := by omega
  have e : encodedSize v = smallestSize (v.toNat - 248) 7 2 := by
    simp [encodedSize, lt_baseWord_iff, hn, sub_baseWord_toNat h]
  rw [e]
  obtain ⟨h1, h2, h3, h4⟩ := smallestSize_spec (v.toNat - 248) 7 2
  refine ⟨h1, h2, ?_, h4⟩
  by_cases h9 : smallestSize (v.toNat - 248) 7 2 = 9
  · have := v.isLt; rw [h9]; omega
  · exact h3 (by omega)

theorem encodedSize_bounds (v : Word) : 1 ≤ encodedSize v ∧ encodedSize v ≤ 9 := by
  by_cases h : v.toNat < 248
  · simp [encodedSize_of_lt h]
  · have := encodedSize_of_le (v := v) (by omega); omega

theorem encodedBody_toNat (v : Word) : (encodedBody v).toNat = if v.toNat < 248 then v.toNat else v.toNat - 248 := by
  unfold encodedBody
  split <;> rename_i h <;> rw [lt_baseWord_iff] at h
  · simp [h]
  · simp [h, sub_baseWord_toNat (v := v) (by omega)]

/-- `Encode(v)` has `EncodedSize(v)` bytes (R79). -/
theorem length_encodeBytes (v : Word) : (encodeBytes v).length = encodedSize v := by
  unfold encodeBytes
  split <;> rename_i h <;> rw [lt_baseWord_iff] at h
  · simp [encodedSize_of_lt h]
  · have := encodedSize_of_le (v := v) (by omega)
    simp [headed, length_tailBytes]; omega

end Machine
end Sys2Proof
end

