-- ==== Sys2Proof/Laws/State.lean ====
section
/-! SUPPORT. The fields after each state operation: one lemma per field per operation, so that no proof unfolds a record update. -/

namespace Sys2Proof.Machine

variable (s : State)

/-! ## answer -/

@[simp] theorem State.answer_dec (o : OpOutcome) : (s.answer o).dec = s.dec := rfl
@[simp] theorem State.answer_enc (o : OpOutcome) : (s.answer o).enc = s.enc := rfl
@[simp] theorem State.answer_decErr (o : OpOutcome) : (s.answer o).decErr = s.decErr := rfl
@[simp] theorem State.answer_encErr (o : OpOutcome) : (s.answer o).encErr = s.encErr := rfl
@[simp] theorem State.answer_decIn (o : OpOutcome) : (s.answer o).decIn = s.decIn := rfl
@[simp] theorem State.answer_encOut (o : OpOutcome) : (s.answer o).encOut = s.encOut := rfl
@[simp] theorem State.answer_outcome (o : OpOutcome) : (s.answer o).outcome = o := rfl
@[simp] theorem State.answer_resetDone (o : OpOutcome) : (s.answer o).resetDone = s.resetDone := rfl
@[simp] theorem State.answer_host (o : OpOutcome) : (s.answer o).host = s.host := rfl
@[simp] theorem State.answer_draw (o : OpOutcome) : (s.answer o).draw = s.draw := rfl

/-! ## setDec -/

@[simp] theorem State.setDec_dec (d : Dec) : (s.setDec d).dec = d := rfl
@[simp] theorem State.setDec_enc (d : Dec) : (s.setDec d).enc = s.enc := rfl
@[simp] theorem State.setDec_decErr (d : Dec) : (s.setDec d).decErr = s.decErr := rfl
@[simp] theorem State.setDec_encErr (d : Dec) : (s.setDec d).encErr = s.encErr := rfl
@[simp] theorem State.setDec_decIn (d : Dec) : (s.setDec d).decIn = s.decIn := rfl
@[simp] theorem State.setDec_encOut (d : Dec) : (s.setDec d).encOut = s.encOut := rfl
@[simp] theorem State.setDec_outcome (d : Dec) : (s.setDec d).outcome = s.outcome := rfl
@[simp] theorem State.setDec_resetDone (d : Dec) : (s.setDec d).resetDone = s.resetDone := rfl
@[simp] theorem State.setDec_host (d : Dec) : (s.setDec d).host = s.host := rfl
@[simp] theorem State.setDec_draw (d : Dec) : (s.setDec d).draw = s.draw := rfl

/-! ## setEnc -/

@[simp] theorem State.setEnc_dec (e : Enc) : (s.setEnc e).dec = s.dec := rfl
@[simp] theorem State.setEnc_enc (e : Enc) : (s.setEnc e).enc = e := rfl
@[simp] theorem State.setEnc_decErr (e : Enc) : (s.setEnc e).decErr = s.decErr := rfl
@[simp] theorem State.setEnc_encErr (e : Enc) : (s.setEnc e).encErr = s.encErr := rfl
@[simp] theorem State.setEnc_decIn (e : Enc) : (s.setEnc e).decIn = s.decIn := rfl
@[simp] theorem State.setEnc_encOut (e : Enc) : (s.setEnc e).encOut = s.encOut := rfl
@[simp] theorem State.setEnc_outcome (e : Enc) : (s.setEnc e).outcome = s.outcome := rfl
@[simp] theorem State.setEnc_resetDone (e : Enc) : (s.setEnc e).resetDone = s.resetDone := rfl
@[simp] theorem State.setEnc_host (e : Enc) : (s.setEnc e).host = s.host := rfl
@[simp] theorem State.setEnc_draw (e : Enc) : (s.setEnc e).draw = s.draw := rfl

/-! ## takeIn -/

@[simp] theorem State.takeIn_dec (b : Byte) : (s.takeIn b).dec = s.dec := rfl
@[simp] theorem State.takeIn_enc (b : Byte) : (s.takeIn b).enc = s.enc := rfl
@[simp] theorem State.takeIn_decErr (b : Byte) : (s.takeIn b).decErr = s.decErr := rfl
@[simp] theorem State.takeIn_encErr (b : Byte) : (s.takeIn b).encErr = s.encErr := rfl
@[simp] theorem State.takeIn_decIn (b : Byte) : (s.takeIn b).decIn = s.decIn ++ [b] := rfl
@[simp] theorem State.takeIn_encOut (b : Byte) : (s.takeIn b).encOut = s.encOut := rfl
@[simp] theorem State.takeIn_outcome (b : Byte) : (s.takeIn b).outcome = s.outcome := rfl
@[simp] theorem State.takeIn_resetDone (b : Byte) : (s.takeIn b).resetDone = s.resetDone := rfl
@[simp] theorem State.takeIn_host (b : Byte) : (s.takeIn b).host = s.host := rfl
@[simp] theorem State.takeIn_draw (b : Byte) : (s.takeIn b).draw = s.draw := rfl

/-! ## emitOut -/

@[simp] theorem State.emitOut_dec (b : Byte) : (s.emitOut b).dec = s.dec := rfl
@[simp] theorem State.emitOut_enc (b : Byte) : (s.emitOut b).enc = s.enc := rfl
@[simp] theorem State.emitOut_decErr (b : Byte) : (s.emitOut b).decErr = s.decErr := rfl
@[simp] theorem State.emitOut_encErr (b : Byte) : (s.emitOut b).encErr = s.encErr := rfl
@[simp] theorem State.emitOut_decIn (b : Byte) : (s.emitOut b).decIn = s.decIn := rfl
@[simp] theorem State.emitOut_encOut (b : Byte) : (s.emitOut b).encOut = s.encOut ++ [b] := rfl
@[simp] theorem State.emitOut_outcome (b : Byte) : (s.emitOut b).outcome = s.outcome := rfl
@[simp] theorem State.emitOut_resetDone (b : Byte) : (s.emitOut b).resetDone = s.resetDone := rfl
@[simp] theorem State.emitOut_host (b : Byte) : (s.emitOut b).host = s.host := rfl
@[simp] theorem State.emitOut_draw (b : Byte) : (s.emitOut b).draw = s.draw := rfl

/-! ## clearDec -/

@[simp] theorem State.clearDec_dec : (s.clearDec).dec = { state := .notStarted, remaining := 0, acc := 0, value := 0 } := rfl
@[simp] theorem State.clearDec_enc : (s.clearDec).enc = s.enc := rfl
@[simp] theorem State.clearDec_decErr : (s.clearDec).decErr = false := rfl
@[simp] theorem State.clearDec_encErr : (s.clearDec).encErr = s.encErr := rfl
@[simp] theorem State.clearDec_decIn : (s.clearDec).decIn = s.decIn := rfl
@[simp] theorem State.clearDec_encOut : (s.clearDec).encOut = s.encOut := rfl
@[simp] theorem State.clearDec_outcome : (s.clearDec).outcome = s.outcome := rfl
@[simp] theorem State.clearDec_resetDone : (s.clearDec).resetDone = s.resetDone := rfl
@[simp] theorem State.clearDec_host : (s.clearDec).host = s.host := rfl
@[simp] theorem State.clearDec_draw : (s.clearDec).draw = s.draw := rfl

/-! ## clearEnc -/

@[simp] theorem State.clearEnc_dec : (s.clearEnc).dec = s.dec := rfl
@[simp] theorem State.clearEnc_enc : (s.clearEnc).enc = { state := .idle, size := 0, left := 0, body := 0 } := rfl
@[simp] theorem State.clearEnc_decErr : (s.clearEnc).decErr = s.decErr := rfl
@[simp] theorem State.clearEnc_encErr : (s.clearEnc).encErr = false := rfl
@[simp] theorem State.clearEnc_decIn : (s.clearEnc).decIn = s.decIn := rfl
@[simp] theorem State.clearEnc_encOut : (s.clearEnc).encOut = s.encOut := rfl
@[simp] theorem State.clearEnc_outcome : (s.clearEnc).outcome = s.outcome := rfl
@[simp] theorem State.clearEnc_resetDone : (s.clearEnc).resetDone = s.resetDone := rfl
@[simp] theorem State.clearEnc_host : (s.clearEnc).host = s.host := rfl
@[simp] theorem State.clearEnc_draw : (s.clearEnc).draw = s.draw := rfl

/-! ## newCycle -/

@[simp] theorem State.newCycle_dec : (s.newCycle).dec = s.dec := rfl
@[simp] theorem State.newCycle_enc : (s.newCycle).enc = s.enc := rfl
@[simp] theorem State.newCycle_decErr : (s.newCycle).decErr = false := rfl
@[simp] theorem State.newCycle_encErr : (s.newCycle).encErr = false := rfl
@[simp] theorem State.newCycle_decIn : (s.newCycle).decIn = s.decIn := rfl
@[simp] theorem State.newCycle_encOut : (s.newCycle).encOut = s.encOut := rfl
@[simp] theorem State.newCycle_outcome : (s.newCycle).outcome = s.outcome := rfl
@[simp] theorem State.newCycle_resetDone : (s.newCycle).resetDone = s.resetDone := rfl
@[simp] theorem State.newCycle_host : (s.newCycle).host = s.host := rfl
@[simp] theorem State.newCycle_draw : (s.newCycle).draw = s.draw + 1 := rfl

/-! ## later -/

@[simp] theorem State.later_dec (r : List Byte) (h : List HostAction) : (s.later r h).dec = s.dec := rfl
@[simp] theorem State.later_enc (r : List Byte) (h : List HostAction) : (s.later r h).enc = s.enc := rfl
@[simp] theorem State.later_decErr (r : List Byte) (h : List HostAction) : (s.later r h).decErr = s.decErr := rfl
@[simp] theorem State.later_encErr (r : List Byte) (h : List HostAction) : (s.later r h).encErr = s.encErr := rfl
@[simp] theorem State.later_decIn (r : List Byte) (h : List HostAction) : (s.later r h).decIn = s.decIn := rfl
@[simp] theorem State.later_encOut (r : List Byte) (h : List HostAction) : (s.later r h).encOut = s.encOut := rfl
@[simp] theorem State.later_outcome (r : List Byte) (h : List HostAction) : (s.later r h).outcome = s.outcome := rfl
@[simp] theorem State.later_resetDone (r : List Byte) (h : List HostAction) : (s.later r h).resetDone = s.resetDone := rfl
@[simp] theorem State.later_host (r : List Byte) (h : List HostAction) : (s.later r h).host = if r.isEmpty then h else .request (.wire r) :: h := rfl
@[simp] theorem State.later_draw (r : List Byte) (h : List HostAction) : (s.later r h).draw = s.draw := rfl

/-! ## raise -/

@[simp] theorem State.raise_decIn (k : ErrorKind) : (s.raise k).decIn = s.decIn := by cases k <;> rfl
@[simp] theorem State.raise_encOut (k : ErrorKind) : (s.raise k).encOut = s.encOut := by cases k <;> rfl
@[simp] theorem State.raise_resetDone (k : ErrorKind) : (s.raise k).resetDone = s.resetDone := by cases k <;> rfl
@[simp] theorem State.raise_host (k : ErrorKind) : (s.raise k).host = s.host := by cases k <;> rfl
@[simp] theorem State.raise_draw (k : ErrorKind) : (s.raise k).draw = s.draw := by cases k <;> rfl
@[simp] theorem State.raise_outcome (k : ErrorKind) : (s.raise k).outcome = .err k := by cases k <;> rfl
@[simp] theorem State.raise_valueTooLarge_dec : (s.raise .valueTooLarge).dec = { s.dec with state := .failed } := rfl
@[simp] theorem State.raise_valueTooLarge_enc : (s.raise .valueTooLarge).enc = s.enc := rfl
@[simp] theorem State.raise_valueTooLarge_decErr : (s.raise .valueTooLarge).decErr = true := rfl
@[simp] theorem State.raise_valueTooLarge_encErr : (s.raise .valueTooLarge).encErr = s.encErr := rfl
@[simp] theorem State.raise_tooFewBytes_dec : (s.raise .tooFewBytes).dec = s.dec := rfl
@[simp] theorem State.raise_tooFewBytes_enc : (s.raise .tooFewBytes).enc = { s.enc with state := .fault } := rfl
@[simp] theorem State.raise_tooFewBytes_decErr : (s.raise .tooFewBytes).decErr = s.decErr := rfl
@[simp] theorem State.raise_tooFewBytes_encErr : (s.raise .tooFewBytes).encErr = true := rfl
@[simp] theorem State.raise_notReady_dec : (s.raise .notReady).dec = s.dec := rfl
@[simp] theorem State.raise_notReady_enc : (s.raise .notReady).enc = s.enc := rfl
@[simp] theorem State.raise_notReady_decErr : (s.raise .notReady).decErr = s.decErr := rfl
@[simp] theorem State.raise_notReady_encErr : (s.raise .notReady).encErr = s.encErr := rfl
@[simp] theorem State.raise_invalidRange_dec : (s.raise .invalidRange).dec = s.dec := rfl
@[simp] theorem State.raise_invalidRange_enc : (s.raise .invalidRange).enc = s.enc := rfl
@[simp] theorem State.raise_invalidRange_decErr : (s.raise .invalidRange).decErr = s.decErr := rfl
@[simp] theorem State.raise_invalidRange_encErr : (s.raise .invalidRange).encErr = s.encErr := rfl

/-! ## startStreams -/

@[simp] theorem State.startStreams_dec : s.startStreams.dec = s.dec := by
  unfold State.startStreams; split <;> rfl
@[simp] theorem State.startStreams_enc : s.startStreams.enc = s.enc := by
  unfold State.startStreams; split <;> rfl
@[simp] theorem State.startStreams_decErr : s.startStreams.decErr = s.decErr := by
  unfold State.startStreams; split <;> rfl
@[simp] theorem State.startStreams_encErr : s.startStreams.encErr = s.encErr := by
  unfold State.startStreams; split <;> rfl
@[simp] theorem State.startStreams_decIn : s.startStreams.decIn = if s.resetDone then s.decIn else [] := by
  unfold State.startStreams; split <;> rfl
@[simp] theorem State.startStreams_encOut : s.startStreams.encOut = if s.resetDone then s.encOut else [] := by
  unfold State.startStreams; split <;> rfl
@[simp] theorem State.startStreams_outcome : s.startStreams.outcome = s.outcome := by
  unfold State.startStreams; split <;> rfl
@[simp] theorem State.startStreams_resetDone : s.startStreams.resetDone = true := by
  unfold State.startStreams; split <;> simp_all
@[simp] theorem State.startStreams_host : s.startStreams.host = s.host := by
  unfold State.startStreams; split <;> rfl
@[simp] theorem State.startStreams_draw : s.startStreams.draw = s.draw := by
  unfold State.startStreams; split <;> rfl

end Sys2Proof.Machine
end

