-- ==== Sys2Proof/Laws/Decoder.lean ====
section
/-! SUPPORT. What DEC's operations can do, case by case, and the induction over a feed. -/

namespace Sys2Proof.Machine

/-- Everything DEC.ACCEPT can do (R85, R88). -/
theorem decAccept_cases (b : Byte) (s : State) :
    (s.dec.state = .notStarted ∧ b < Config.base ∧ decAccept b s =
      { s with dec := { s.dec with value := b.setWidth 64, state := .ready }, decIn := s.decIn ++ [b], outcome := .ok (.done true) }) ∨
    (s.dec.state = .notStarted ∧ ¬ b < Config.base ∧ decAccept b s =
      { s with dec := { s.dec with remaining := BitVec.ofNat 4 (tailLen b), acc := 0, state := .awaitingTail }
               decIn := s.decIn ++ [b], outcome := .ok (.done false) }) ∨
    (s.dec.state = .awaitingTail ∧ Config.maxTail < accumulate s.dec.acc b ∧ decAccept b s =
      { s with dec := { s.dec with acc := accumulate s.dec.acc b, state := .failed }
               decErr := true, decIn := s.decIn ++ [b], outcome := .err .valueTooLarge }) ∨
    (s.dec.state = .awaitingTail ∧ ¬ Config.maxTail < accumulate s.dec.acc b ∧ s.dec.remaining - 1 = 0 ∧ decAccept b s =
      { s with dec := { state := .ready, remaining := 0, acc := accumulate s.dec.acc b,
                        value := accumulate s.dec.acc b + Config.baseWord }
               decIn := s.decIn ++ [b], outcome := .ok (.done true) }) ∨
    (s.dec.state = .awaitingTail ∧ ¬ Config.maxTail < accumulate s.dec.acc b ∧ s.dec.remaining - 1 ≠ 0 ∧ decAccept b s =
      { s with dec := { s.dec with remaining := s.dec.remaining - 1, acc := accumulate s.dec.acc b }
               decIn := s.decIn ++ [b], outcome := .ok (.done false) }) ∨
    ((s.dec.state = .ready ∨ s.dec.state = .failed) ∧ decAccept b s = { s with outcome := .notAccepted }) := by
  cases hs : s.dec.state
  · by_cases hb : b < Config.base <;>
      simp [hb, decAccept, hs, acceptFirst, State.takeIn, State.setDec, State.answer]
  · by_cases ha : Config.maxTail < accumulate s.dec.acc b
    · simp [ha, decAccept, hs, acceptTail, State.takeIn, State.setDec, State.raise]
    · by_cases h0 : s.dec.remaining - 1#4 = 0#4 <;>
        simp [ha, h0, decAccept, hs, acceptTail, State.takeIn, State.setDec, State.answer]
  · simp [decAccept, hs, State.answer]
  · simp [decAccept, hs, State.answer]

/-- Everything DEC.VALUE can do (R87). -/
theorem decValue_cases (s : State) :
    (s.dec.state = .ready ∧ decValue s = { s with outcome := .ok (.value s.dec.value) }) ∨
    (s.dec.state ≠ .ready ∧ decValue s = { s with outcome := .err .notReady }) := by
  cases hs : s.dec.state <;> simp [decValue, hs, State.answer, State.raise]

/-- DEC.VALUE changes nothing but the answer. -/
theorem decValue_eq (s : State) : decValue s = { s with outcome := (decValue s).outcome } := by
  obtain h | h := decValue_cases s <;> simp [h]

theorem Dec.inReady_iff (d : Dec) : d.inReady = true ↔ d.state = .notStarted ∨ d.state = .awaitingTail := by
  cases hs : d.state <;> simp [Dec.inReady, hs]

theorem Dec.inReady_eq_false_iff (d : Dec) : d.inReady = false ↔ d.state = .ready ∨ d.state = .failed := by
  cases hs : d.state <;> simp [Dec.inReady, hs]

/-- DEC.ACCEPT leaves ENC, its stream, and the model's own fields. -/
theorem decAccept_frame (b : Byte) (s : State) :
    (decAccept b s).enc = s.enc ∧ (decAccept b s).encErr = s.encErr ∧ (decAccept b s).encOut = s.encOut ∧
      (decAccept b s).resetDone = s.resetDone ∧ (decAccept b s).host = s.host ∧ (decAccept b s).draw = s.draw := by
  obtain h | h | h | h | h | h := decAccept_cases b s <;> simp [h]

/-- An accepted byte joins DEC_IN. -/
theorem decAccept_decIn {b : Byte} {s : State} (h : s.dec.inReady = true) : (decAccept b s).decIn = s.decIn ++ [b] := by
  obtain h' | h' | h' | h' | h' | h' := decAccept_cases b s
  case inr.inr.inr.inr.inr => obtain ⟨h1 | h1, -⟩ := h' <;> simp [Dec.inReady, h1] at h
  all_goals simp [h']

theorem feed_nil (s : State) : feed [] s = (s, 0) := rfl

theorem feed_cons_of_inReady {b : Byte} {bs : List Byte} {s : State} (h : s.dec.inReady = true) :
    feed (b :: bs) s = ((feed bs (decAccept b s)).1, (feed bs (decAccept b s)).2 + 1) := by
  simp [feed, h]

theorem feed_of_not_inReady {span : List Byte} {s : State} (h : s.dec.inReady = false) : feed span s = (s, 0) := by
  cases span <;> simp [feed, h]

/-- What every accepted byte keeps, a feed keeps. -/
theorem feed_induction {P : State → Prop} (hP : ∀ b s, s.dec.inReady = true → P s → P (decAccept b s))
    (span : List Byte) (s : State) (h : P s) : P (feed span s).1 := by
  induction span generalizing s with
  | nil => exact h
  | cons b bs ih =>
    cases hs : s.dec.inReady
    · simpa [feed_of_not_inReady hs] using h
    · simpa [feed_cons_of_inReady hs] using ih _ (hP b s hs h)

/-- A feed leaves ENC, its stream, and the model's own fields. -/
theorem feed_frame (span : List Byte) (s : State) :
    (feed span s).1.enc = s.enc ∧ (feed span s).1.encErr = s.encErr ∧ (feed span s).1.encOut = s.encOut ∧
      (feed span s).1.resetDone = s.resetDone ∧ (feed span s).1.host = s.host ∧ (feed span s).1.draw = s.draw :=
  feed_induction (P := fun u => u.enc = s.enc ∧ u.encErr = s.encErr ∧ u.encOut = s.encOut ∧
      u.resetDone = s.resetDone ∧ u.host = s.host ∧ u.draw = s.draw)
    (fun b u _ h => by simpa [decAccept_frame b u] using h) span s (by simp)

/-- The loop test writes the host's script only. -/
@[simp] theorem State.feedNext_dec (rest : List Byte) (s : State) : (s.feedNext rest).dec = s.dec := rfl
@[simp] theorem State.feedNext_enc (rest : List Byte) (s : State) : (s.feedNext rest).enc = s.enc := rfl
@[simp] theorem State.feedNext_decErr (rest : List Byte) (s : State) : (s.feedNext rest).decErr = s.decErr := rfl
@[simp] theorem State.feedNext_encErr (rest : List Byte) (s : State) : (s.feedNext rest).encErr = s.encErr := rfl
@[simp] theorem State.feedNext_decIn (rest : List Byte) (s : State) : (s.feedNext rest).decIn = s.decIn := rfl
@[simp] theorem State.feedNext_encOut (rest : List Byte) (s : State) : (s.feedNext rest).encOut = s.encOut := rfl
@[simp] theorem State.feedNext_outcome (rest : List Byte) (s : State) : (s.feedNext rest).outcome = s.outcome := rfl
@[simp] theorem State.feedNext_resetDone (rest : List Byte) (s : State) : (s.feedNext rest).resetDone = s.resetDone := rfl
@[simp] theorem State.feedNext_draw (rest : List Byte) (s : State) : (s.feedNext rest).draw = s.draw := rfl
@[simp] theorem State.feedNext_host (rest : List Byte) (s : State) :
    (s.feedNext rest).host = if s.dec.inReady && !rest.isEmpty then .feed rest :: s.host else s.host := rfl

/-- Everything an offer of bytes can do: nothing without a byte, else DEC.ACCEPT of the first and the loop test. -/
theorem offer_cases (span : List Byte) (s : State) :
    (span = [] ∧ offer span s = s) ∨ ∃ b rest, span = b :: rest ∧ offer span s = (decAccept b s).feedNext rest := by
  cases span with
  | nil => exact .inl ⟨rfl, rfl⟩
  | cons b rest => exact .inr ⟨b, rest, rfl, rfl⟩

/-- An offer leaves ENC, its stream, and the model's own fields but the host's script. -/
theorem offer_frame (span : List Byte) (s : State) :
    (offer span s).enc = s.enc ∧ (offer span s).encErr = s.encErr ∧ (offer span s).encOut = s.encOut ∧
      (offer span s).resetDone = s.resetDone ∧ (offer span s).draw = s.draw := by
  obtain ⟨-, e⟩ | ⟨b, rest, -, e⟩ := offer_cases span s <;> simp [e, decAccept_frame]

/-- A step of a feed is an offer, or nothing when DEC accepts no byte. -/
theorem feedStep_cases (span : List Byte) (s : State) :
    (s.dec.inReady = true ∧ feedStep span s = offer span s) ∨ (s.dec.inReady = false ∧ feedStep span s = s) := by
  cases h : s.dec.inReady <;> simp [feedStep, h]

/-- A feed consumes at most its bytes, records exactly those, and stops early only when DEC accepts no more. -/
theorem feed_consumed (span : List Byte) (s : State) :
    (feed span s).2 ≤ span.length ∧ (feed span s).1.decIn = s.decIn ++ span.take (feed span s).2 ∧
      ((feed span s).2 = span.length ∨ (feed span s).1.dec.inReady = false) := by
  induction span generalizing s with
  | nil => simp [feed_nil]
  | cons b bs ih =>
    cases hs : s.dec.inReady
    · simp [feed_of_not_inReady hs, hs]
    · obtain ⟨h1, h2, h3⟩ := ih (decAccept b s)
      simp only [feed_cons_of_inReady hs, h2, decAccept_decIn hs]
      refine ⟨by simpa using h1, by simp, ?_⟩
      simpa using h3

/-- Feeding a concatenation is feeding its parts one after the other. -/
theorem feed_append (as bs : List Byte) (s : State) :
    feed (as ++ bs) s = ((feed bs (feed as s).1).1, (feed as s).2 + (feed bs (feed as s).1).2) := by
  induction as generalizing s with
  | nil => simp [feed_nil]
  | cons a as ih =>
    cases hs : s.dec.inReady
    · rw [feed_of_not_inReady hs, feed_of_not_inReady hs, feed_of_not_inReady hs]; rfl
    · rw [List.cons_append, feed_cons_of_inReady hs, feed_cons_of_inReady hs, ih]
      exact Prod.ext rfl (by simp only; omega)

end Sys2Proof.Machine
end

