-- ==== Sys2Proof/Laws/Encoder.lean ====
section
/-! SUPPORT. What ENC's operations can do, case by case, and which byte of the encoding comes next. -/

namespace Sys2Proof

theorem tailBytes_getElem? {w : Nat} (k i : Nat) (t : BitVec w) (h : i < k) :
    (tailBytes k t)[i]? = some ((t >>> (8 * (k - 1 - i))).setWidth 8) := by
  induction k generalizing i with
  | zero => omega
  | succ k ih =>
    cases i with
    | zero => simp [tailBytes]
    | succ i => simp only [tailBytes, List.getElem?_cons_succ, ih i (by omega)]; congr 4; omega

namespace Machine

/-- Everything ENC.LOAD can do (R71, R75). -/
theorem encLoad_cases (v : Word) (s : State) :
    (s.enc.state = .idle ∧ encLoad v s =
      { s with enc := { state := .emit, size := BitVec.ofNat 4 (encodedSize v), left := BitVec.ofNat 4 (encodedSize v),
                        body := encodedBody v }
               outcome := .ok .none }) ∨
    ((s.enc.state = .emit ∨ s.enc.state = .fault) ∧ encLoad v s = { s with outcome := .notAccepted }) := by
  cases hs : s.enc.state <;> simp [encLoad, hs, State.setEnc, State.answer]

/-- Everything ENC.EMIT can do (R72, R75). -/
theorem encEmit_cases (s : State) :
    (s.enc.state = .emit ∧ encEmit s =
      { s with enc := { s.enc with left := s.enc.left - 1, state := if s.enc.left - 1 = 0 then .idle else .emit }
               encOut := s.encOut ++ [s.enc.nextByte]
               outcome := .ok (.byte s.enc.nextByte (s.enc.left - 1 == 0)) }) ∨
    ((s.enc.state = .idle ∨ s.enc.state = .fault) ∧ encEmit s = { s with outcome := .notAccepted }) := by
  cases hs : s.enc.state <;> simp [encEmit, hs, State.emitOut, State.setEnc, State.answer]

/-- Everything ENC.FULL can do (R73, R75). -/
theorem encFull_cases (s : State) :
    (s.enc.state = .emit ∧ encFull s =
      { s with enc := { s.enc with state := .fault }, encErr := true, outcome := .err .tooFewBytes }) ∨
    ((s.enc.state = .idle ∨ s.enc.state = .fault) ∧ encFull s = { s with outcome := .notAccepted }) := by
  cases hs : s.enc.state <;> simp [encFull, hs, State.raise, State.answer]

/-- ENC.LOAD leaves DEC, both streams, and the model's own fields. -/
theorem encLoad_frame (v : Word) (s : State) :
    (encLoad v s).dec = s.dec ∧ (encLoad v s).decErr = s.decErr ∧ (encLoad v s).decIn = s.decIn ∧ (encLoad v s).encOut = s.encOut ∧
      (encLoad v s).encErr = s.encErr ∧ (encLoad v s).resetDone = s.resetDone ∧ (encLoad v s).host = s.host ∧
      (encLoad v s).draw = s.draw := by
  obtain h | h := encLoad_cases v s <;> simp [h]

/-- ENC.EMIT leaves DEC, its stream, and the model's own fields. -/
theorem encEmit_frame (s : State) :
    (encEmit s).dec = s.dec ∧ (encEmit s).decErr = s.decErr ∧ (encEmit s).decIn = s.decIn ∧ (encEmit s).encErr = s.encErr ∧
      (encEmit s).resetDone = s.resetDone ∧ (encEmit s).host = s.host ∧ (encEmit s).draw = s.draw := by
  obtain h | h := encEmit_cases s <;> simp [h]

/-- ENC.FULL leaves DEC, both streams, and the model's own fields. -/
theorem encFull_frame (s : State) :
    (encFull s).dec = s.dec ∧ (encFull s).decErr = s.decErr ∧ (encFull s).decIn = s.decIn ∧ (encFull s).encOut = s.encOut ∧
      (encFull s).resetDone = s.resetDone ∧ (encFull s).host = s.host ∧ (encFull s).draw = s.draw := by
  obtain h | h := encFull_cases s <;> simp [h]

/-- The next byte of a loaded value is the byte of its encoding at the number of bytes already out (R21, R72). -/
theorem nextByte_of_loaded {e : Enc} {v : Word} (hs : e.size.toNat = encodedSize v) (hb : e.body = encodedBody v)
    (h1 : 1 ≤ e.left.toNat) (hl : e.left.toNat ≤ e.size.toNat) :
    (encodeBytes v)[e.size.toNat - e.left.toNat]? = some e.nextByte := by
  have hbound := encodedSize_bounds v
  have e1 : e.size = 1 ↔ encodedSize v = 1 := by
    rw [← hs]; exact ⟨fun h => by rw [h]; rfl, fun h => BitVec.eq_of_toNat_eq h⟩
  by_cases hfirst : e.left = e.size
  · rw [hfirst, Nat.sub_self]
    by_cases hv : v < Config.baseWord
    · have h' := encodedSize_of_lt ((lt_baseWord_iff v).mp hv)
      have hone := e1.mpr h'
      simp [Enc.nextByte, hfirst, hone, encodeBytes, encodedBody, hv, hb]
    · have h' := encodedSize_of_le (v := v) (by rw [lt_baseWord_iff] at hv; omega)
      have hne : ¬ encodedSize v = 1 := by omega
      simp only [Enc.nextByte, hfirst, e1, hne, if_true, if_false, encodeBytes, hv, headed, List.getElem?_cons_zero]
      congr 2
      apply BitVec.eq_of_toNat_eq
      rw [BitVec.toNat_sub]
      simp [hs]; omega
  · have hlt : e.left.toNat < e.size.toNat := by
      have : e.left.toNat ≠ e.size.toNat := fun h => hfirst (BitVec.eq_of_toNat_eq h)
      omega
    have hv : ¬ v < Config.baseWord := fun hv => by
      have := encodedSize_of_lt ((lt_baseWord_iff v).mp hv); omega
    simp only [Enc.nextByte, hfirst, if_false, encodeBytes, hv, headed]
    rw [show e.size.toNat - e.left.toNat = (e.size.toNat - e.left.toNat - 1) + 1 by omega, List.getElem?_cons_succ,
      tailBytes_getElem? _ _ _ (by omega), hb]
    congr 4; omega

end Machine
end Sys2Proof
end

