-- ==== Sys2Proof/Laws/Exec.lean ====
section
/-! SUPPORT. What an operation can do, said once: the guard of the first RESET, and one inversion lemma for `exec` that names every case. -/

namespace Sys2Proof.Machine

theorem State.operate_of_reset {f : State → State} {s : State} (h : s.resetDone = true) : s.operate f = .next (f s) := by
  simp [State.operate, h]

theorem State.operate_eq_next {f : State → State} {s t : State} :
    s.operate f = .next t ↔ s.resetDone = true ∧ t = f s := by
  cases h : s.resetDone <;> simp [State.operate, h, eq_comm (a := f s)]

theorem State.operate_before_reset {f : State → State} {s : State} (h : s.resetDone = false) :
    s.operate f = .fault .beforeFirstReset := by
  simp [State.operate, h]

/-- The SGN functions leave an answer and nothing else. -/
@[simp] theorem sgnTou_eq (x : Word) (s : State) : sgnTou x s = s.answer (.ok (.unsigned (toUnsigned x))) := rfl
@[simp] theorem sgnTos_eq (u : Word) (s : State) : sgnTos u s = s.answer (.ok (.signed (toSigned u))) := rfl

/-- A wire-format row offers its bytes. -/
theorem exec_of_span {i : Instr} (s : State) (h : i.span ≠ []) : exec i s = s.operate (offer i.span) := by
  cases i <;> first | rfl | exact absurd rfl h

/-- Everything an operation can do when it answers a next state. -/
theorem exec_cases {i : Instr} {s t : State} (h : exec i s = .next t) :
    (i = .reset ∧ t = blockReset s) ∨
    (∃ x, i = .sgnTou x ∧ t = s.answer (.ok (.unsigned (toUnsigned x)))) ∨
    (∃ u, i = .sgnTos u ∧ t = s.answer (.ok (.signed (toSigned u)))) ∨
    (s.resetDone = true ∧
      ((∃ v, i = .encSize v ∧ t = encSize v s) ∨ (∃ v, i = .encLoad v ∧ t = encLoad v s) ∨
       (i = .encEmit ∧ t = encEmit s) ∨ (i = .encFull ∧ t = encFull s) ∨ (i = .encReset ∧ t = encReset s) ∨
       (∃ b, i = .decAccept b ∧ t = decAccept b s) ∨ (i = .decReset ∧ t = decReset s) ∨ (i = .decValue ∧ t = decValue s) ∨
       (i.span ≠ [] ∧ t = offer i.span s))) := by
  cases i
  case reset => exact .inl ⟨rfl, by injection h with h; exact h.symm⟩
  case sgnTou x => exact .inr (.inl ⟨x, rfl, by injection h with h; exact h.symm⟩)
  case sgnTos u => exact .inr (.inr (.inl ⟨u, rfl, by injection h with h; exact h.symm⟩))
  all_goals
    obtain ⟨hr, ht⟩ := State.operate_eq_next.mp h
    refine .inr (.inr (.inr ⟨hr, ?_⟩))
    simp [ht, Instr.span, headed]

/-- RESET, field by field (R130, R131). -/
theorem blockReset_eq (s : State) : blockReset s = { s with
    dec := { state := .notStarted, remaining := 0, acc := 0, value := 0 }
    enc := { state := .idle, size := 0, left := 0, body := 0 }
    decErr := false
    encErr := false
    decIn := if s.resetDone then s.decIn else []
    encOut := if s.resetDone then s.encOut else []
    outcome := .ok .none
    resetDone := true } := by
  cases h : s.resetDone <;> simp [blockReset, State.startStreams, State.clearDec, State.clearEnc, State.answer, h]

/-- No operation undoes the first RESET or advances the draw counter, and only a wire-format row writes the host's script. -/
theorem exec_bookkeeping {i : Instr} {s t : State} (h : exec i s = .next t) :
    (s.resetDone = true → t.resetDone = true) ∧ (i.span = [] → t.host = s.host) ∧ t.draw = s.draw := by
  obtain ⟨-, rfl⟩ | ⟨x, -, rfl⟩ | ⟨u, -, rfl⟩ | ⟨hr, h⟩ := exec_cases h
  · simp [blockReset_eq]
  · simp
  · simp
  obtain ⟨v, -, rfl⟩ | ⟨v, -, rfl⟩ | ⟨-, rfl⟩ | ⟨-, rfl⟩ | ⟨-, rfl⟩ | ⟨b, -, rfl⟩ | ⟨-, rfl⟩ | ⟨-, rfl⟩ | ⟨hs, rfl⟩ := h
  · simp [encSize]
  · simp [encLoad_frame]
  · simp [encEmit_frame]
  · simp [encFull_frame]
  · simp [encReset]
  · simp [decAccept_frame]
  · simp [decReset]
  · rw [decValue_eq]; simp
  · simp [offer_frame, hs]

/-- After the first RESET every operation answers a next state. -/
theorem exec_answers (i : Instr) {s : State} (h : s.resetDone = true) : ∃ t, exec i s = .next t := by
  cases i <;>
    first
      | exact ⟨_, rfl⟩
      | exact ⟨_, State.operate_of_reset h⟩

end Sys2Proof.Machine
end

