-- ==== Sys2Proof/Laws/Feed.lean ====
section
/-! SUPPORT. What feeding tail bytes does to a DEC in AWAITING_TAIL (R85), in closed form: a part of the tail, and the whole of it. -/

namespace Sys2Proof.Machine

theorem accumulate_toNat (acc : Word) (b : Byte) : (accumulate acc b).toNat = (acc.toNat * 256 + b.toNat) % 2 ^ 64 := by
  have := b.isLt
  simp [accumulate, BitVec.toNat_add, BitVec.toNat_mul]

theorem tailLen_eq_mod (b : Byte) : tailLen b = b.toNat % 8 + 1 := by simp [tailLen]

theorem tailLen_le (b : Byte) : tailLen b ≤ 8 := by
  rw [tailLen_eq_mod]; omega

theorem one_le_tailLen (b : Byte) : 1 ≤ tailLen b := by
  rw [tailLen_eq_mod]; omega

/-- The numeric form of `tailLen` on header bytes (R53). -/
theorem tailLen_of_header {b : Byte} (h : ¬ b < Config.base) : tailLen b = b.toNat - 247 := by
  rw [lt_base_iff] at h
  have := b.isLt
  rw [tailLen_eq_mod]; omega

theorem pow256_le {m n : Nat} (h : m ≤ n) : 256 ^ m ≤ 256 ^ n := Nat.pow_le_pow_right (by decide) h

/-- Fewer tail bytes than DEC waits for: it takes them all and waits for the rest. -/
theorem feed_part_of_tail (tail : List Byte) (s : State) (h : s.dec.state = .awaitingTail) (hlen : tail.length < s.dec.remaining.toNat)
    (hr : s.dec.remaining.toNat ≤ 8) (ha : s.dec.acc.toNat < 256 ^ (8 - s.dec.remaining.toNat)) :
    (feed tail s).2 = tail.length ∧ (feed tail s).1.decErr = s.decErr ∧
      (feed tail s).1.dec = {
        state := .awaitingTail
        remaining := BitVec.ofNat 4 (s.dec.remaining.toNat - tail.length)
        acc := BitVec.ofNat 64 (s.dec.acc.toNat * 256 ^ tail.length + bigEndian tail)
        value := s.dec.value } := by
  induction tail generalizing s with
  | nil =>
    obtain ⟨⟨state, remaining, acc, value⟩⟩ := s
    simp_all [feed_nil, bigEndian_nil]
  | cons b tail ih =>
    rw [List.length_cons] at hlen
    have hin : s.dec.inReady = true := by simp [Dec.inReady, h]
    have hb := b.isLt
    have hp : 256 ^ (8 - s.dec.remaining.toNat) * 256 = 256 ^ (8 - (s.dec.remaining.toNat - 1)) := by
      rw [← Nat.pow_succ]; congr 1; omega
    have hsmall : s.dec.acc.toNat * 256 + b.toNat < 256 ^ (8 - (s.dec.remaining.toNat - 1)) := by omega
    have hle := pow256_le (m := 8 - (s.dec.remaining.toNat - 1)) (n := 7) (by omega)
    have hacc : (accumulate s.dec.acc b).toNat = s.dec.acc.toNat * 256 + b.toNat := by
      rw [accumulate_toNat, Nat.mod_eq_of_lt (by omega)]
    have hover : ¬ Config.maxTail < accumulate s.dec.acc b := by rw [maxTail_lt_iff, hacc]; omega
    have hrem : (s.dec.remaining - 1).toNat = s.dec.remaining.toNat - 1 := by
      rw [BitVec.toNat_sub]; simp; omega
    obtain h' | h' | h' | h' | h' | h' := decAccept_cases b s
    case inl | inr.inl => simp [h] at h'
    case inr.inr.inl => exact absurd h'.2.1 hover
    case inr.inr.inr.inl => have := congrArg BitVec.toNat h'.2.2.1; rw [hrem] at this; simp at this; omega
    case inr.inr.inr.inr.inr => simp [h] at h'
    obtain ⟨-, -, -, e⟩ := h'
    have ih := ih (decAccept b s) (by simp [e, h]) (by simp [e] at hrem ⊢; omega) (by simp [e] at hrem ⊢; omega)
      (by simp [e] at hrem ⊢; rw [hrem, hacc]; exact hsmall)
    obtain ⟨i1, i2, i3⟩ := ih
    rw [feed_cons_of_inReady hin]
    refine ⟨by simp [i1], by rw [i2, e], ?_⟩
    rw [i3, e]
    simp only [hacc, hrem, bigEndian_cons, List.length_cons, Nat.pow_succ, Dec.mk.injEq, true_and, and_true]
    constructor
    · congr 1; omega
    · congr 1; ring

/-- All the tail bytes DEC waits for: it completes the value, or overflows, on the last of them. -/
theorem feed_whole_tail (tail : List Byte) (s : State) (h : s.dec.state = .awaitingTail) (hlen : tail.length = s.dec.remaining.toNat)
    (h1 : 1 ≤ s.dec.remaining.toNat) (hr : s.dec.remaining.toNat ≤ 8) (ha : s.dec.acc.toNat < 256 ^ (8 - s.dec.remaining.toNat)) :
    (feed tail s).2 = tail.length ∧ s.dec.acc.toNat * 256 ^ tail.length + bigEndian tail < 2 ^ 64 ∧
    (2 ^ 64 - 1 - 248 < s.dec.acc.toNat * 256 ^ tail.length + bigEndian tail →
      (feed tail s).1.decErr = true ∧ (feed tail s).1.outcome = .err .valueTooLarge ∧
      (feed tail s).1.dec = {
        state := .failed, remaining := 1
        acc := BitVec.ofNat 64 (s.dec.acc.toNat * 256 ^ tail.length + bigEndian tail)
        value := s.dec.value }) ∧
    (s.dec.acc.toNat * 256 ^ tail.length + bigEndian tail ≤ 2 ^ 64 - 1 - 248 →
      (feed tail s).1.decErr = s.decErr ∧ (feed tail s).1.outcome = .ok (.done true) ∧
      (feed tail s).1.dec = {
        state := .ready, remaining := 0
        acc := BitVec.ofNat 64 (s.dec.acc.toNat * 256 ^ tail.length + bigEndian tail)
        value := BitVec.ofNat 64 (s.dec.acc.toNat * 256 ^ tail.length + bigEndian tail + 248) }) := by
  obtain rfl | ⟨init, b, rfl⟩ := List.eq_nil_or_concat tail
  · simp at hlen; omega
  rw [List.concat_eq_append] at *
  rw [List.length_append, List.length_singleton] at hlen
  obtain ⟨p1, p2, p3⟩ := feed_part_of_tail init s h (by omega) hr ha
  have hN : s.dec.acc.toNat * 256 ^ (init ++ [b]).length + bigEndian (init ++ [b]) =
      (s.dec.acc.toNat * 256 ^ init.length + bigEndian init) * 256 + b.toNat := by
    rw [bigEndian_append_singleton, List.length_append, List.length_singleton, Nat.pow_succ]; ring
  rw [hN]
  have hb := b.isLt
  have hi := bigEndian_lt init
  have hA : s.dec.acc.toNat * 256 ^ init.length + bigEndian init < 256 ^ 7 := by
    have : 256 ^ (8 - s.dec.remaining.toNat) * 256 ^ init.length = 256 ^ 7 := by
      rw [← Nat.pow_add, show 8 - s.dec.remaining.toNat + init.length = 7 by omega]
    nlinarith [Nat.pow_pos (n := init.length) (show 0 < 256 by decide)]
  generalize hAe : s.dec.acc.toNat * 256 ^ init.length + bigEndian init = A at *
  have hone : s.dec.remaining.toNat - init.length = 1 := by omega
  rw [hone] at p3
  have hu : (feed init s).1.dec.state = .awaitingTail := by rw [p3]
  have hur : (feed init s).1.dec.remaining = 1 := by rw [p3]; rfl
  have hacc : (accumulate (feed init s).1.dec.acc b).toNat = A * 256 + b.toNat := by
    rw [accumulate_toNat, p3]
    simp only [BitVec.toNat_ofNat]
    rw [Nat.mod_eq_of_lt (a := A) (by omega), Nat.mod_eq_of_lt (by omega)]
  have hacc' : accumulate (feed init s).1.dec.acc b = BitVec.ofNat 64 (A * 256 + b.toNat) := by
    apply BitVec.eq_of_toNat_eq; rw [hacc, BitVec.toNat_ofNat, Nat.mod_eq_of_lt (by omega)]
  have hin : (feed init s).1.dec.inReady = true := by simp [Dec.inReady, hu]
  rw [feed_append, feed_cons_of_inReady hin, feed_nil]
  refine ⟨by simp [p1], by omega, fun hbig => ?_, fun hsmall => ?_⟩
  · have hover : Config.maxTail < accumulate (feed init s).1.dec.acc b := by rw [maxTail_lt_iff, hacc]; exact hbig
    obtain h' | h' | h' | h' | h' | h' := decAccept_cases b (feed init s).1
    case inl | inr.inl => simp [hu] at h'
    case inr.inr.inr.inl | inr.inr.inr.inr.inl => exact absurd hover h'.2.1
    case inr.inr.inr.inr.inr => simp [hu] at h'
    rw [p3] at hacc'
    simp only [h'.2.2, p3, hacc', true_and]
    rfl
  · have hover : ¬ Config.maxTail < accumulate (feed init s).1.dec.acc b := by rw [maxTail_lt_iff, hacc]; omega
    obtain h' | h' | h' | h' | h' | h' := decAccept_cases b (feed init s).1
    case inl | inr.inl => simp [hu] at h'
    case inr.inr.inl => exact absurd h'.2.1 hover
    case inr.inr.inr.inr.inl => rw [hur] at h'; simp at h'
    case inr.inr.inr.inr.inr => simp [hu] at h'
    simp only [h'.2.2.2, p2, hacc', true_and]
    rw [Config.baseWord, BitVec.ofNat_add (A * 256 + b.toNat)]
    rfl

end Sys2Proof.Machine
end

