-- ==== Sys2Proof/Laws/PerInstr.lean ====
section
/-! SUPPORT. The family TableRow: the request that `encode` writes for a well-formed instruction has the fixed bits of its row of
spec/opcode_table.json, under the row's mask. -/

namespace Sys2Proof.Laws.TableRow

/-- The bits of a request that the table's masks cover: the command vector with dec_in_byte below it on the DEC port, the command
vector alone on the others, the first byte of a span. An operand without selecting bits is all of its word. -/
def bits : Request → Nat
  | .rst r => r.toNat
  | .dec vector b => vector.toNat * 256 + b.toNat
  | .rd r => r.toNat
  | .enc vector _ => vector.toNat
  | .size v => v.toNat
  | .toUnsigned x => x.toNat
  | .toSigned u => u.toNat
  | .wire [] => 0
  | .wire (b :: _) => b.toNat

/-- The row's mask and match. DEC.RESET's three vector bits stand above a dec_in_byte, as in the row after it. -/
def row : Instr → Nat × Nat
  | .reset => (0x1, 0x1)
  | .decReset => (0x600, 0x200)
  | .decAccept _ => (0x700, 0x100)
  | .decValue => (0x1, 0x1)
  | .encReset => (0x18, 0x8)
  | .encLoad _ => (0x1C, 0x4)
  | .encFull => (0x1A, 0x2)
  | .encEmit => (0x1B, 0x1)
  | .encSize _ => (0x0, 0x0)
  | .sgnTou _ => (0x0, 0x0)
  | .sgnTos _ => (0x0, 0x0)
  | .w1_0vvvvvvv _ => (0x80, 0x0)
  | .w1_10vvvvvv _ => (0xC0, 0x80)
  | .w1_110vvvvv _ => (0xE0, 0xC0)
  | .w1_1110vvvv _ => (0xF0, 0xE0)
  | .w1_11110vvv _ => (0xF8, 0xF0)
  | .w2 _ => (0xFF, 0xF8)
  | .w3 _ => (0xFF, 0xF9)
  | .w4 _ => (0xFF, 0xFA)
  | .w5 _ => (0xFF, 0xFB)
  | .w6 _ => (0xFF, 0xFC)
  | .w7 _ => (0xFF, 0xFD)
  | .w8 _ => (0xFF, 0xFE)
  | .w9 _ => (0xFF, 0xFF)

/-- The statement of the family. -/
def Statement (i : Instr) : Prop := i.wellFormed = true → bits (encode i) &&& (row i).1 = (row i).2

/-- A byte with a row's pattern has the row's fixed bits as a number. -/
theorem of_hasPattern {mask pattern v : Byte} (h : Byte.hasPattern mask pattern v = true) : v.toNat &&& mask.toNat = pattern.toNat := by
  have h : v &&& mask = pattern := by simpa [Byte.hasPattern] using h
  rw [← h, BitVec.toNat_and]

theorem reset : Statement .reset := fun _ => rfl
theorem decReset : Statement .decReset := fun _ => rfl
theorem decAccept (b : Byte) : Statement (.decAccept b) := fun _ => by
  revert b; decide +kernel
theorem decValue : Statement .decValue := fun _ => rfl
theorem encReset : Statement .encReset := fun _ => rfl
theorem encLoad (v : Word) : Statement (.encLoad v) := fun _ => by simp [bits, row, encode]
theorem encFull : Statement .encFull := fun _ => rfl
theorem encEmit : Statement .encEmit := fun _ => rfl
theorem encSize (v : Word) : Statement (.encSize v) := fun _ => Nat.and_zero _
theorem sgnTou (x : Word) : Statement (.sgnTou x) := fun _ => Nat.and_zero _
theorem sgnTos (u : Word) : Statement (.sgnTos u) := fun _ => Nat.and_zero _
theorem w1_0vvvvvvv (v : Byte) : Statement (.w1_0vvvvvvv v) := fun h => of_hasPattern h
theorem w1_10vvvvvv (v : Byte) : Statement (.w1_10vvvvvv v) := fun h => of_hasPattern h
theorem w1_110vvvvv (v : Byte) : Statement (.w1_110vvvvv v) := fun h => of_hasPattern h
theorem w1_1110vvvv (v : Byte) : Statement (.w1_1110vvvv v) := fun h => of_hasPattern h
theorem w1_11110vvv (v : Byte) : Statement (.w1_11110vvv v) := fun h => of_hasPattern h
theorem w2 (t : BitVec 8) : Statement (.w2 t) := fun _ => by simp [bits, row, encode, Instr.span, headed, Config.base]
theorem w3 (t : BitVec 16) : Statement (.w3 t) := fun _ => by simp [bits, row, encode, Instr.span, headed, Config.base]
theorem w4 (t : BitVec 24) : Statement (.w4 t) := fun _ => by simp [bits, row, encode, Instr.span, headed, Config.base]
theorem w5 (t : BitVec 32) : Statement (.w5 t) := fun _ => by simp [bits, row, encode, Instr.span, headed, Config.base]
theorem w6 (t : BitVec 40) : Statement (.w6 t) := fun _ => by simp [bits, row, encode, Instr.span, headed, Config.base]
theorem w7 (t : BitVec 48) : Statement (.w7 t) := fun _ => by simp [bits, row, encode, Instr.span, headed, Config.base]
theorem w8 (t : BitVec 56) : Statement (.w8 t) := fun _ => by simp [bits, row, encode, Instr.span, headed, Config.base]
theorem w9 (t : BitVec 64) : Statement (.w9 t) := fun _ => by simp [bits, row, encode, Instr.span, headed, Config.base]

end Sys2Proof.Laws.TableRow
end

