-- ==== Sys2Proof/Laws/Pseudo.lean ====
section
/-! SUPPORT. The guard of the pseudo-operations: what follows from it after the first RESET and before it. -/

namespace Sys2Proof.Machine

variable {α : Type} {f : State → State × α} {s : State}

theorem State.perform_of_reset (h : s.resetDone = true) : s.perform f = .next (f s) := by
  simp [State.perform, h]

theorem State.perform_before_reset (h : s.resetDone = false) : s.perform f = .fault .beforeFirstReset := by
  simp [State.perform, h]

theorem State.perform_eq_next {r : State × α} : s.perform f = .next r ↔ s.resetDone = true ∧ r = f s := by
  cases h : s.resetDone <;> simp [State.perform, h, eq_comm (a := f s)]

end Sys2Proof.Machine
end

