-- ==== Sys2Proof/Laws/Step.lean ====
section
/-! SUPPORT. What a step can do, said once, and the induction that carries a property through sequences of operations and steps. -/

namespace Sys2Proof.Machine

/-- A sequence of operations that answers a next state: the first operation, then the others from the state it left. -/
theorem runOps_cons {i : Instr} {is : List Instr} {s t : State} :
    runOps (i :: is) s = .next t ↔ ∃ u, exec i s = .next u ∧ runOps is u = .next t := by
  simp only [runOps]
  cases exec i s <;> simp

/-- A sequence in two parts. -/
theorem runOps_append {is js : List Instr} {s t : State} :
    runOps (is ++ js) s = .next t ↔ ∃ u, runOps is s = .next u ∧ runOps js u = .next t := by
  induction is generalizing s with
  | nil => simp [runOps]
  | cons i is ih =>
    simp only [List.cons_append, runOps_cons, ih]
    exact ⟨fun ⟨u, hu, w, hw, ht⟩ => ⟨w, ⟨u, hu, hw⟩, ht⟩, fun ⟨w, ⟨u, hu, hw⟩, ht⟩ => ⟨u, hu, w, hw, ht⟩⟩

/-- What every operation keeps, a sequence of them keeps. -/
theorem runOps_induction {P : State → Prop} (hP : ∀ i s t, P s → exec i s = .next t → P t) {is : List Instr} {s t : State}
    (h : runOps is s = .next t) (hs : P s) : P t := by
  induction is generalizing s with
  | nil => injection h with h; exact h ▸ hs
  | cons i is ih =>
    obtain ⟨u, hu, ht⟩ := runOps_cons.mp h
    exact ih ht (hP i s u hs hu)

/-- After the first RESET a sequence of operations always answers a next state. -/
theorem runOps_answers (is : List Instr) {s : State} (h : s.resetDone = true) : ∃ t, runOps is s = .next t := by
  induction is generalizing s with
  | nil => exact ⟨s, rfl⟩
  | cons i is ih =>
    obtain ⟨u, hu⟩ := exec_answers i h
    obtain ⟨t, ht⟩ := ih ((exec_bookkeeping hu).1 h)
    exact ⟨t, runOps_cons.mpr ⟨u, hu, ht⟩⟩

/-- Everything a step can do when it answers a next state. -/
theorem step_cases {s t : State} (h : step s = .next t) :
    (s.host = [] ∧ t = s.newCycle) ∨
    (∃ r later i rest, s.host = .request r :: later ∧ decode s.enc.state r = .op i rest ∧
      exec i (s.newCycle.later rest later) = .next t) ∨
    (∃ r later why, s.host = .request r :: later ∧ decode s.enc.state r = .reject why ∧ t = s.newCycle.later [] later) ∨
    (∃ span later, s.host = .feed span :: later ∧ s.resetDone = true ∧ t = feedStep span (s.newCycle.later [] later)) ∨
    (∃ p later, s.host = .edge p :: later ∧ runOps (edgeOps p (s.newCycle.later [] later)) (s.newCycle.later [] later) = .next t) := by
  unfold step at h
  split at h
  · next hh => exact .inl ⟨hh, by injection h with h; exact h.symm⟩
  · next r later hh =>
    split at h
    · next i rest hd => exact .inr (.inl ⟨r, later, i, rest, hh, hd, h⟩)
    · next why hd => exact .inr (.inr (.inl ⟨r, later, why, hh, hd, by injection h with h; exact h.symm⟩))
  · next span later hh =>
    obtain ⟨hr, ht⟩ := State.operate_eq_next.mp h
    exact .inr (.inr (.inr (.inl ⟨span, later, hh, hr, ht⟩)))
  · next p later hh => exact .inr (.inr (.inr (.inr ⟨p, later, hh, h⟩)))

/-- What every operation keeps, and the bookkeeping of a step keeps, a step keeps. -/
theorem step_induction {P : State → Prop} (hP : ∀ i s t, P s → exec i s = .next t → P t) (hcycle : ∀ s, P s → P s.newCycle)
    (hlater : ∀ rest later s, P s → P (s.later rest later)) (hfeed : ∀ rest s, P s → P (s.feedNext rest)) {s t : State}
    (h : step s = .next t) (hs : P s) : P t := by
  obtain ⟨-, rfl⟩ | ⟨r, later, i, rest, -, -, ht⟩ | ⟨r, later, why, -, -, rfl⟩ | ⟨span, later, -, hr, rfl⟩ |
    ⟨p, later, -, ht⟩ := step_cases h
  · exact hcycle s hs
  · exact hP i _ t (hlater rest later _ (hcycle s hs)) ht
  · exact hlater [] later _ (hcycle s hs)
  · have hs := hlater [] later _ (hcycle s hs)
    obtain ⟨-, e⟩ | ⟨-, e⟩ := feedStep_cases span (s.newCycle.later [] later)
    · obtain ⟨-, e'⟩ | ⟨b, rest, -, e'⟩ := offer_cases span (s.newCycle.later [] later)
      · rw [e, e']; exact hs
      · rw [e, e']; exact hfeed rest _ (hP (.decAccept b) _ _ hs (State.operate_of_reset (f := decAccept b) hr))
    · rw [e]; exact hs
  · exact runOps_induction hP ht (hlater [] later _ (hcycle s hs))

end Sys2Proof.Machine
end

