-- ==== Sys2Proof/Tests/Slice0.lean ====
section
/-! SUPPORT. The model's own tests: ill-formed terms, words written out from the spec's encodings, single steps with the spec's worked
examples, and a witness for the hypotheses of every statement. Expected results are from the spec (R66, R52, the worked examples of
40 to 42, and 95_test_vectors.md). -/

namespace Sys2Proof.Tests

open Sys2Proof.Machine

/-! ## Helpers -/

/-- A block whose DEC has these elements. -/
def withDec (state : DecState) (remaining : Count) (acc value : Word) : State :=
  { State.reset with dec := { state := state, remaining := remaining, acc := acc, value := value } }

/-- A block whose ENC has these elements. -/
def withEnc (state : EncState) (size left : Count) (body : Word) : State :=
  { State.reset with enc := { state := state, size := size, left := left, body := body } }

/-- A block with these host actions to come. -/
def withHost (host : List HostAction) : State := { State.reset with host := host }

/-- What a next state answers. -/
def answerOf : Host.Outcome State Fault Refusal → Option OpOutcome
  | .next s => some s.outcome
  | .fault _ => none
  | .refused _ => none

/-- DEC in a next state. -/
def decOf : Host.Outcome State Fault Refusal → Option Dec
  | .next s => some s.dec
  | .fault _ => none
  | .refused _ => none

/-- ENC in a next state. -/
def encOf : Host.Outcome State Fault Refusal → Option Enc
  | .next s => some s.enc
  | .fault _ => none
  | .refused _ => none

/-- The host's script in a next state. -/
def scriptOf : Host.Outcome State Fault Refusal → Option (List HostAction)
  | .next s => some s.host
  | .fault _ => none
  | .refused _ => none

/-- DEC after the eight bytes FF FF FF FF FF FF FF FF of R58. -/
def beforeLastByte : State := withDec .awaitingTail 1 0xFFFFFFFFFFFFFF 0

/-- DEC in FAILED, as R119 leaves it. -/
def failed : State := withDec .failed 1 0xFFFFFFFFFFFFFF08 0

/-- ENC in FAULT after `ENC.LOAD 505`, `ENC.EMIT`, `ENC.FULL` (R73). -/
def faulted : State := withEnc .fault 3 2 257

/-- ENC in EMIT after `ENC.LOAD 505` (R71). -/
def emitting : State := withEnc .emit 3 3 257

/-! ## Ill-formed terms: a W1 operand outside its row's first bytes (R53) -/

theorem test_illformed_w1_0vvvvvvv : (Instr.w1_0vvvvvvv 0x80).wellFormed = false := by decide
theorem test_illformed_w1_10vvvvvv : (Instr.w1_10vvvvvv 0xC0).wellFormed = false := by decide
theorem test_illformed_w1_110vvvvv : (Instr.w1_110vvvvv 0xE0).wellFormed = false := by decide
theorem test_illformed_w1_1110vvvv : (Instr.w1_1110vvvv 0xF0).wellFormed = false := by decide
theorem test_illformed_w1_11110vvv : (Instr.w1_11110vvv 0xF8).wellFormed = false := by decide

/-! ## Decoding: each pattern of R66 and R53 bit by bit, its ignored bits set where it has some -/

theorem test_decode_reset : decode .idle (.rst true) = .op .reset [] := by decide
theorem test_decode_reset_dec_port : decode .idle (.dec 0b111 0) = .op .reset [] := by decide
theorem test_decode_reset_enc_port : decode .emit (.enc 0b11111 0) = .op .reset [] := by decide
theorem test_decode_decReset : decode .idle (.dec 0b011 0) = .op .decReset [] := by decide
theorem test_decode_decAccept : decode .idle (.dec 0b001 0b10110001) = .op (.decAccept 0xB1) [] := by decide
theorem test_decode_decValue : decode .idle (.rd true) = .op .decValue [] := by decide
theorem test_decode_encReset : decode .emit (.enc 0b01111 0) = .op .encReset [] := by decide
theorem test_decode_encLoad : decode .idle (.enc 0b00111 505) = .op (.encLoad 505) [] := by decide
theorem test_decode_encFull : decode .emit (.enc 0b00111 505) = .op .encFull [] := by decide
theorem test_decode_encEmit : decode .emit (.enc 0b00101 505) = .op .encEmit [] := by decide
theorem test_decode_encSize : decode .idle (.size 505) = .op (.encSize 505) [] := by decide
theorem test_decode_sgnTou : decode .idle (.toUnsigned 5) = .op (.sgnTou 5) [] := by decide
theorem test_decode_sgnTos : decode .idle (.toSigned 5) = .op (.sgnTos 5) [] := by decide
theorem test_decode_w1_0vvvvvvv : decode .idle (.wire [0b01100101]) = .op (.w1_0vvvvvvv 0x65) [] := by decide
theorem test_decode_w1_10vvvvvv : decode .idle (.wire [0b10111111]) = .op (.w1_10vvvvvv 0xBF) [] := by decide
theorem test_decode_w1_110vvvvv : decode .idle (.wire [0b11000000]) = .op (.w1_110vvvvv 0xC0) [] := by decide
theorem test_decode_w1_1110vvvv : decode .idle (.wire [0b11101010]) = .op (.w1_1110vvvv 0xEA) [] := by decide
theorem test_decode_w1_11110vvv : decode .idle (.wire [0b11110111]) = .op (.w1_11110vvv 0xF7) [] := by decide
theorem test_decode_w2 : decode .idle (.wire [0b11111000, 0x01, 0x02, 0x03]) = .op (.w2 0x01) [0x02, 0x03] := by decide
theorem test_decode_w3 : decode .idle (.wire [0b11111001, 0x02, 0xF0]) = .op (.w3 0x02F0) [] := by decide
theorem test_decode_w4 : decode .idle (.wire [0b11111010, 0xBC, 0x60, 0x56]) = .op (.w4 0xBC6056) [] := by decide
theorem test_decode_w5 : decode .idle (.wire [0b11111011, 0xDE, 0xAD, 0xBD, 0xF7]) = .op (.w5 0xDEADBDF7) [] := by decide
theorem test_decode_w6 : decode .idle (.wire [0b11111100, 1, 2, 3, 4, 5]) = .op (.w6 0x0102030405) [] := by decide
theorem test_decode_w7 : decode .idle (.wire [0b11111101, 1, 2, 3, 4, 5, 6]) = .op (.w7 0x010203040506) [] := by decide
theorem test_decode_w8 : decode .idle (.wire [0b11111110, 1, 2, 3, 4, 5, 6, 7]) = .op (.w8 0x01020304050607) [] := by decide
theorem test_decode_w9 :
    decode .idle (.wire [0b11111111, 1, 2, 3, 4, 5, 6, 7, 8]) = .op (.w9 0x0102030405060708) [] := by decide
theorem test_decode_truncated : decode .idle (.wire [0xF9, 0x01]) = .op (.decAccept 0xF9) [0x01] := by decide
theorem test_decode_idle_dec : decode .idle (.dec 0b000 0xFF) = .reject .idleVector := by decide
theorem test_decode_idle_enc : decode .emit (.enc 0b00000 7) = .reject .idleVector := by decide

/-! ## Table words (opcode_table.json's numbering; log entry 4) -/

theorem test_table_reset : decodeTableWord 8 0x1 = some .reset := by decide
theorem test_table_decReset : decodeTableWord 8 0x2 = some .decReset := by decide
theorem test_table_decAccept : decodeTableWord 16 0x1B1 = some (.decAccept 0xB1) := by decide
theorem test_table_encReset : decodeTableWord 8 0x08 = some .encReset := by decide
theorem test_table_encLoad : decodeTableWord 72 0x1F904 = some (.encLoad 505) := by decide
theorem test_table_encSize : decodeTableWord 64 505 = some (.encSize 505) := by decide
theorem test_table_w1 : decodeTableWord 8 0xE5 = some (.w1_1110vvvv 0xE5) := by decide
theorem test_table_w3 : decodeTableWord 24 0xF002F9 = some (.w3 0x02F0) := by decide
theorem test_table_w9 : decodeTableWord 72 0x07FFFFFFFFFFFFFFFF = some (.w9 0xFFFFFFFFFFFFFF07) := by decide

/-! ## One step each (the worked examples of the rules) -/

/-- R130: from DEC in FAILED. -/
theorem test_reset : decOf (exec .reset failed) = some State.reset.dec := by decide
theorem test_reset_enc : encOf (exec .reset emitting) = some State.reset.enc := by decide
/-- R86: from FAILED. -/
theorem test_decReset : decOf (exec .decReset failed) = some State.reset.dec := by decide
/-- R85: `DEC.ACCEPT 0xF9 -> done=0`, then two tail bytes 0x01, the second of which completes 505. -/
theorem test_decAccept_header : decOf (exec (.decAccept 0xF9) State.reset) =
    some { state := .awaitingTail, remaining := 2, acc := 0, value := 0 } := by decide
theorem test_decAccept_completes : decOf (exec (.decAccept 0x01) (withDec .awaitingTail 1 1 0)) =
    some { state := .ready, remaining := 0, acc := 257, value := 505 } := by decide
/-- R87: NotReady after a reset, although dec_value is 0; 505 in READY. -/
theorem test_decValue_notReady : answerOf (exec .decValue State.reset) = some (.err .notReady) := by decide
theorem test_decValue_ready : answerOf (exec .decValue (withDec .ready 0 257 505)) = some (.ok (.value 505)) := by decide
/-- R74: from FAULT. -/
theorem test_encReset : encOf (exec .encReset faulted) = some State.reset.enc := by decide
/-- R71: `ENC.LOAD 505`. -/
theorem test_encLoad : encOf (exec (.encLoad 505) State.reset) = some emitting.enc := by decide
theorem test_encLoad_notAccepted : answerOf (exec (.encLoad 0) emitting) = some .notAccepted := by decide
/-- R73: after `ENC.EMIT -> 0xF9`. -/
theorem test_encFull : encOf (exec .encFull (withEnc .emit 3 2 257)) = some faulted.enc := by decide
/-- R72: the header 0xF9 first, and `last` with the third byte. -/
theorem test_encEmit_header : answerOf (exec .encEmit emitting) = some (.ok (.byte 0xF9 false)) := by decide
theorem test_encEmit_last : answerOf (exec .encEmit (withEnc .emit 3 1 257)) = some (.ok (.byte 0x01 true)) := by decide
/-- R70: `ENC.SIZE 505 -> 3`; 248 is the first value of two bytes. -/
theorem test_encSize : answerOf (exec (.encSize 505) State.reset) = some (.ok (.size 3)) := by decide
theorem test_encSize_boundary : answerOf (exec (.encSize 248) State.reset) = some (.ok (.size 2)) := by decide
/-- R105: `SGN.TOU -128 -> 0xFF`; the most negative value. -/
theorem test_sgnTou : answerOf (exec (.sgnTou (-128)) State.reset) = some (.ok (.unsigned 0xFF)) := by decide
theorem test_sgnTou_min : answerOf (exec (.sgnTou 0x8000000000000000) State.reset) =
    some (.ok (.unsigned 0xFFFFFFFFFFFFFFFF)) := by decide
/-- R106: `SGN.TOS 0xFE -> 127`, `SGN.TOS 0xFF -> -128`. -/
theorem test_sgnTos_even : answerOf (exec (.sgnTos 0xFE) State.reset) = some (.ok (.signed 127)) := by decide
theorem test_sgnTos_odd : answerOf (exec (.sgnTos 0xFF) State.reset) = some (.ok (.signed (-128))) := by decide
/-- R51: a single byte is its own value (95_test_vectors.md S2 and V31 to V33). -/
theorem test_w1_0vvvvvvv : decOf (exec (.w1_0vvvvvvv 0x7F) State.reset) = some { state := .ready, value := 127 } := by decide
theorem test_w1_10vvvvvv : decOf (exec (.w1_10vvvvvv 0x80) State.reset) = some { state := .ready, value := 128 } := by decide
theorem test_w1_110vvvvv : decOf (exec (.w1_110vvvvv 0xC8) State.reset) = some { state := .ready, value := 200 } := by decide
theorem test_w1_1110vvvv : decOf (exec (.w1_1110vvvv 0xEF) State.reset) = some { state := .ready, value := 239 } := by decide
theorem test_w1_11110vvv : decOf (exec (.w1_11110vvv 0xF7) State.reset) = some { state := .ready, value := 247 } := by decide
/-- R52: the header byte is taken, and the tail bytes come next (95_test_vectors.md S5, S6, V44, V49, V54, V57, V60, S7). -/
theorem test_w2 : (decOf (exec (.w2 0xFF) State.reset)).map Dec.remaining = some 1 ∧
    scriptOf (exec (.w2 0xFF) State.reset) = some [.feed [0xFF]] := by decide
theorem test_w3 : (decOf (exec (.w3 0x0101) State.reset)).map Dec.remaining = some 2 ∧
    scriptOf (exec (.w3 0x0101) State.reset) = some [.feed [0x01, 0x01]] := by decide
theorem test_w4 : (decOf (exec (.w4 0xBC6056) State.reset)).map Dec.remaining = some 3 ∧
    scriptOf (exec (.w4 0xBC6056) State.reset) = some [.feed [0xBC, 0x60, 0x56]] := by decide
theorem test_w5 : (decOf (exec (.w5 0xDEADBDF7) State.reset)).map Dec.remaining = some 4 ∧
    scriptOf (exec (.w5 0xDEADBDF7) State.reset) = some [.feed [0xDE, 0xAD, 0xBD, 0xF7]] := by decide
theorem test_w6 : (decOf (exec (.w6 0xFFFFFFFF08) State.reset)).map Dec.remaining = some 5 ∧
    scriptOf (exec (.w6 0xFFFFFFFF08) State.reset) = some [.feed [0xFF, 0xFF, 0xFF, 0xFF, 0x08]] := by decide
theorem test_w7 : (decOf (exec (.w7 0xFFFFFFFFFF08) State.reset)).map Dec.remaining = some 6 ∧
    scriptOf (exec (.w7 0xFFFFFFFFFF08) State.reset) = some [.feed [0xFF, 0xFF, 0xFF, 0xFF, 0xFF, 0x08]] := by decide
theorem test_w8 : (decOf (exec (.w8 0xFFFFFFFFFFFF08) State.reset)).map Dec.remaining = some 7 ∧
    scriptOf (exec (.w8 0xFFFFFFFFFFFF08) State.reset) = some [.feed [0xFF, 0xFF, 0xFF, 0xFF, 0xFF, 0xFF, 0x08]] := by decide
theorem test_w9 : (decOf (exec (.w9 0xFFFFFFFFFFFFFF07) State.reset)).map Dec.remaining = some 8 ∧
    scriptOf (exec (.w9 0xFFFFFFFFFFFFFF07) State.reset) = some [.feed [0xFF, 0xFF, 0xFF, 0xFF, 0xFF, 0xFF, 0xFF, 0x07]] := by decide
/-- R58: the ninth byte 0x08 overflows, the ninth byte 0x07 completes 2^64 - 1 (95_test_vectors.md S7 and S8). -/
theorem test_w9_overflow : answerOf (step { beforeLastByte with host := [.feed [0x08]] }) = some (.err .valueTooLarge) := by decide
theorem test_w9_completes : (decOf (step { beforeLastByte with host := [.feed [0x07]] })).map Dec.value =
    some 18446744073709551615 := by decide
/-- R132: before the first RESET the block has no behaviour. -/
theorem test_before_reset : answerOf (exec (.encSize 0) (State.powerUp [])) = none := by decide

/-! ## Steps through the host's script -/

theorem test_step_request : answerOf (step (withHost [.request (.size 505)])) = some (.ok (.size 3)) := by decide
theorem test_step_fetchWord : answerOf (step (State.reset.withFetchWord 24 0x0101F9)) = some (.ok (.done false)) := by decide
/-- R91: a feed stops when DEC accepts no more, and its other bytes are dropped from the host's script. -/
theorem test_step_feed_stops : scriptOf (step (withHost [.feed [0x05, 0x06], .edge {}])) = some [.edge {}] := by decide
theorem test_step_feed_goes_on : scriptOf (step (withHost [.feed [0xF8, 0x06], .edge {}])) =
    some [.feed [0x06], .edge {}] := by decide
/-- R66: the unit reset goes before the data operation of the same edge. -/
theorem test_step_edge : decOf (step (withHost [.edge { decClr := true, decInValid := true, decInByte := 7 }])) =
    some State.reset.dec := by decide

/-! ## Witnesses: states and operands that meet the hypotheses of each statement, at the boundaries of its clauses -/

theorem witness_ResetClearsBothUnits : ({ rst := true, decRd := true } : PortIn).rst = true := by decide

theorem witness_DecResetClearsDec : failed.resetDone = true := by decide

theorem witness_EncResetClearsEnc : faulted.resetDone = true := by decide

theorem witness_ResetValuesAreZero : emitting.resetDone = true := by decide

theorem witness_DecResetIsFreshDec : failed.resetDone = true ∧ (∃ t, exec .decReset failed = .next t) ∧
    ∀ i ∈ [Instr.decAccept 0xF8, .w2 1, .decValue, .decReset], drivesDec i = true :=
  ⟨rfl, ⟨_, rfl⟩, by decide⟩

theorem witness_NoBehaviourBeforeFirstReset : (State.powerUp []).resetDone = false ∧ Instr.encSize 0 ≠ .reset ∧
    ∀ x, Instr.encSize 0 ≠ .sgnTou x ∧ Instr.encSize 0 ≠ .sgnTos x :=
  ⟨rfl, by decide, by simp⟩

theorem witness_DecAcceptTransitions_first : State.reset.resetDone = true ∧ State.reset.dec.state = .notStarted ∧
    BitVec.toNat (247 : Byte) < 248 ∧ 248 ≤ BitVec.toNat (248 : Byte) := by decide

/-- Byte 7 completes the largest value, byte 8 overflows, and with two bytes missing the tail goes on. -/
theorem witness_DecAcceptTransitions_tail : beforeLastByte.resetDone = true ∧ beforeLastByte.dec.state = .awaitingTail ∧
    beforeLastByte.dec.remaining = 1 ∧
    (beforeLastByte.dec.acc.toNat * 256 + 7) % 2 ^ 64 ≤ 2 ^ 64 - 1 - 248 ∧
    2 ^ 64 - 1 - 248 < (beforeLastByte.dec.acc.toNat * 256 + 8) % 2 ^ 64 ∧
    (withDec .awaitingTail 2 0 0).dec.state = .awaitingTail ∧ (withDec .awaitingTail 2 0 0).dec.remaining ≠ 1 := by decide

theorem witness_DecAcceptOutsideItsStates : failed.resetDone = true ∧ failed.dec.state = .failed ∧
    (withDec .ready 0 0 5).dec.state = .ready := by decide

theorem witness_DecValueReadsWithoutEffect : (withDec .ready 0 0 5).resetDone = true ∧ (withDec .ready 0 0 5).dec.state = .ready ∧
    failed.dec.state ≠ .ready ∧ ∃ t, exec .decValue failed = .next t :=
  ⟨rfl, rfl, by decide, _, rfl⟩

theorem witness_OverflowOnlyOnEighthTailByte : beforeLastByte.resetDone = true ∧ beforeLastByte.dec.state = .awaitingTail ∧
    beforeLastByte.dec.inRange ∧ (∃ t, exec (.decAccept 8) beforeLastByte = .next t ∧ t.outcome = .err .valueTooLarge) ∧
    (withDec .awaitingTail 2 0 0).dec.inRange ∧ (withDec .awaitingTail 2 0 0).dec.remaining ≠ 1 :=
  ⟨rfl, rfl, fun _ => by decide, ⟨_, rfl, rfl⟩, fun _ => by decide, by decide⟩

theorem witness_SingleByteRowsComplete : State.reset.resetDone = true ∧ State.reset.dec.state = .notStarted ∧
    BitVec.toNat (0x7F : Byte) < 0x80 ∧ 0x80 ≤ BitVec.toNat (0x80 : Byte) ∧ BitVec.toNat (0xBF : Byte) < 0xC0 ∧
    0xC0 ≤ BitVec.toNat (0xC0 : Byte) ∧ BitVec.toNat (0xDF : Byte) < 0xE0 ∧ 0xE0 ≤ BitVec.toNat (0xE0 : Byte) ∧
    BitVec.toNat (0xEF : Byte) < 0xF0 ∧ 0xF0 ≤ BitVec.toNat (0xF0 : Byte) ∧ BitVec.toNat (0xF7 : Byte) < 0xF8 := by decide

theorem witness_HeadedRowsComplete : State.reset.resetDone = true ∧ State.reset.dec.state = .notStarted := by decide

theorem witness_NineByteRowCompletesOrOverflows : State.reset.resetDone = true ∧ State.reset.dec.state = .notStarted ∧
    BitVec.toNat (0xFFFFFFFFFFFFFF07 : Word) ≤ 2 ^ 64 - 1 - 248 ∧ 2 ^ 64 - 1 - 248 < BitVec.toNat (0xFFFFFFFFFFFFFF08 : Word) := by decide

theorem witness_OverflowSequencesAreRejected : State.reset.resetDone = true ∧
    (decodeExpansion [0xFF, 0xFF, 0xFF, 0xFF, 0xFF, 0xFF, 0xFF, 0xFF, 0x08] State.reset).2 = .err .valueTooLarge := by decide

/-- A row whose tail follows, a row of one byte, and a row that a failed DEC does not take at all. -/
theorem witness_WireRowIsItsAccepts : (Instr.w9 0xFFFFFFFFFFFFFF08).span ≠ [] ∧ State.reset.resetDone = true ∧
    (Instr.w1_0vvvvvvv 5).span ≠ [] ∧ failed.resetDone = true := by decide

theorem witness_EncSizeIsSmallestLength : State.reset.resetDone = true ∧ BitVec.toNat (247 : Word) < 248 ∧
    248 ≤ BitVec.toNat (248 : Word) ∧ encodedSize 504 = 3 ∧ encodedSize 503 = 2 := by decide

theorem witness_EncLoadLatchesValue : State.reset.resetDone = true ∧ State.reset.enc.state = .idle ∧
    BitVec.toNat (247 : Word) < 248 ∧ 248 ≤ BitVec.toNat (248 : Word) := by decide

/-- A single byte, a header, and a tail byte. -/
theorem witness_EncEmitWritesNextByte : emitting.resetDone = true ∧
    (withEnc .emit 1 1 247).enc.state = .emit ∧ (withEnc .emit 1 1 247).enc.inRange ∧ emitting.enc.inRange ∧
    emitting.enc.left = emitting.enc.size ∧ emitting.enc.size ≠ 1 ∧
    (withEnc .emit 3 1 257).enc.inRange ∧ (withEnc .emit 3 1 257).enc.left ≠ (withEnc .emit 3 1 257).enc.size ∧
    (withEnc .emit 3 1 257).enc.left = 1 :=
  ⟨rfl, rfl, fun _ => by decide, fun _ => by decide, rfl, by decide, fun _ => by decide, by decide, rfl⟩

theorem witness_EncFullEntersFault : emitting.resetDone = true ∧ emitting.enc.state = .emit := by decide

theorem witness_EncOperationsOutsideTheirState : emitting.resetDone = true ∧ emitting.enc.state = .emit ∧
    faulted.enc.state = .fault ∧ State.reset.enc.state = .idle := by decide

theorem witness_OfferedByteIsEmittedByte : emitting.resetDone = true ∧ emitting.enc.state = .emit ∧ faulted.enc.state ≠ .emit := by decide

theorem witness_SgnTouMapsSignedToUnsigned : 0 ≤ BitVec.toInt (0 : Word) ∧ BitVec.toInt (-1 : Word) < 0 := by decide

theorem witness_SgnTosMapsUnsignedToSigned : BitVec.toNat (0 : Word) % 2 = 0 ∧ BitVec.toNat (1 : Word) % 2 = 1 := by decide

theorem witness_SignedMappingsAreInverse : -124 ≤ BitVec.toInt (-124 : Word) ∧ BitVec.toInt (-124 : Word) ≤ 123 ∧
    BitVec.toInt (123 : Word) ≤ 123 := by decide

theorem witness_EveryOperationAnswers : failed.resetDone = true := by decide

theorem witness_NotAcceptedExactlyOutsideAcceptance : (∃ t, exec (.w2 1) failed = .next t ∧ t.outcome = .notAccepted) ∧
    (∃ t, exec (.decAccept 0) failed = .next t ∧ t.outcome = .notAccepted) ∧
    (∃ t, exec (.encLoad 0) emitting = .next t ∧ t.outcome = .notAccepted) ∧
    ∃ t, exec .encFull faulted = .next t ∧ t.outcome = .notAccepted :=
  ⟨⟨_, rfl, rfl⟩, ⟨_, rfl, rfl⟩, ⟨_, rfl, rfl⟩, _, rfl, rfl⟩

theorem witness_ErrorsArePrecise : (∃ t, exec (.w1_0vvvvvvv 8) beforeLastByte = .next t ∧ t.outcome = .err .valueTooLarge) ∧
    (Instr.w1_0vvvvvvv 8).span.head? = some 8 ∧
    (∃ t, exec (.decAccept 8) beforeLastByte = .next t ∧ t.outcome = .err .valueTooLarge) ∧
    (∃ t, exec .encFull emitting = .next t ∧ t.outcome = .err .tooFewBytes) ∧
    (∃ t, exec .decValue State.reset = .next t ∧ t.outcome = .err .notReady) ∧ ({ decRd := true } : PortIn).decRd = true :=
  ⟨⟨_, rfl, rfl⟩, rfl, ⟨_, rfl, rfl⟩, ⟨_, rfl, rfl⟩, ⟨_, rfl, rfl⟩, rfl⟩

theorem witness_TerminalStatesAreSticky : failed.dec.state = .failed ∧ (∃ t, exec (.w2 1) failed = .next t) ∧
    (∃ t, exec .decValue failed = .next t) ∧ (∃ t, exec .decReset failed = .next t) ∧
    faulted.enc.state = .fault ∧ (∃ t, exec .encEmit faulted = .next t) ∧ ∃ t, exec .encReset faulted = .next t :=
  ⟨rfl, ⟨_, rfl⟩, ⟨_, rfl⟩, ⟨_, rfl⟩, rfl, ⟨_, rfl⟩, _, rfl⟩

theorem witness_OperationsChangeOnlyTheirUnit : (∃ t, exec (.encLoad 505) State.reset = .next t ∧ t.outcome ≠ .err .tooFewBytes) ∧
    drivesDec (.encLoad 505) = false ∧ drivesEnc (.w2 1) = false ∧ Instr.encLoad 505 ≠ .encEmit ∧ State.reset.resetDone = true ∧
    (∃ t, exec (.decAccept 0xF8) State.reset = .next t ∧ t.outcome ≠ .err .valueTooLarge) ∧ (Instr.encLoad 505).span = [] ∧
    (Instr.w2 1).span = 0xF8 :: [0x01] :=
  ⟨⟨_, rfl, by decide⟩, rfl, rfl, by decide, rfl, ⟨_, rfl, by decide⟩, rfl, rfl⟩

theorem witness_UnitsDoNotObserveEachOther : State.reset.resetDone = true ∧ emitting.resetDone = true ∧
    drivesEnc (.decAccept 5) = false ∧ emitting.dec = State.reset.dec ∧ (∃ t, exec (.decAccept 5) State.reset = .next t) ∧
    drivesDec .encEmit = false ∧ failed.enc = State.reset.enc ∧ ∃ t, exec .encEmit State.reset = .next t :=
  ⟨rfl, rfl, rfl, rfl, ⟨_, rfl⟩, rfl, rfl, _, rfl⟩

theorem witness_StreamsOnlyGrow : emitting.resetDone = true ∧ ∃ t, exec .encEmit emitting = .next t ∧ t.encOut = [0xF9] :=
  ⟨rfl, _, rfl, rfl⟩

/-- Two blocks that differ in a dec_acc that DEC does not read. -/
theorem witness_MeaninglessFieldsAreUnobservable : (withDec .notStarted 0 1 0).alike State.reset ∧
    withDec .notStarted 0 1 0 ≠ State.reset ∧ ∃ t, exec (.decAccept 0xF8) (withDec .notStarted 0 1 0) = .next t :=
  ⟨⟨rfl, rfl, rfl⟩, by decide, _, rfl⟩

theorem witness_StepKeepsRanges : emitting.inRange ∧ ∃ t, step { emitting with host := [.request (.enc 0b00001 0)] } = .next t :=
  ⟨fun _ => ⟨fun h => absurd h (by decide), fun _ => by decide⟩, _, rfl⟩

theorem witness_StepKeepsStreamsTracked : State.reset.tracksStreams ∧ ∃ t, step (withHost [.request (.enc 0b00100 505)]) = .next t :=
  ⟨fun _ => ⟨trivial, fun h => absurd rfl h⟩, _, rfl⟩

theorem witness_StepRunsDecodedInstruction : (withHost [.request (.wire [0xF8, 0x01, 0x02])]).host =
      .request (.wire [0xF8, 0x01, 0x02]) :: [] ∧
    decode .idle (.wire [0xF8, 0x01, 0x02]) = .op (.w2 1) [0x02] ∧ (Instr.w2 1).wellFormed = true ∧
    (withHost [.edge { rst := true }]).host = .edge { rst := true } :: [] := by decide

theorem witness_NothingHappensWithoutTheHost : State.reset.host = [] ∧
    (withHost [.request (.dec 0 0)]).host = .request (.dec 0 0) :: [] ∧
    decode .idle (.dec 0 0) = .reject .idleVector := by decide

theorem witness_DecodeOfEncodeIsIdentity : (Instr.w1_0vvvvvvv 0x7F).wellFormed = true ∧ (Instr.w1_10vvvvvv 0x80).wellFormed = true ∧
    (Instr.w1_110vvvvv 0xDF).wellFormed = true ∧ (Instr.w1_1110vvvv 0xE0).wellFormed = true ∧
    (Instr.w1_11110vvv 0xF7).wellFormed = true ∧ (Instr.encLoad 505).wellFormed = true := by decide

theorem witness_EveryFirstByteHasARow : wireLength 0xF7 ≤ ([] : List Byte).length + 1 ∧
    wireLength 0xFF ≤ (List.replicate 8 (0 : Byte)).length + 1 ∧ wireLength 0xF8 = 2 := by decide

theorem witness_EdgePriorities : State.reset.resetDone = true ∧ State.reset.dec.inReady = true ∧ failed.dec.inReady = false ∧
    State.reset.enc.state = .idle ∧ emitting.enc.state = .emit ∧ faulted.enc.state = .fault := by decide

theorem witness_EdgePriorities_inputs :
    ({ decClr := false, decInValid := true, encClr := false, encLoad := true, encOutFull := true, encOutReady := true } : PortIn).rst =
      false := by decide

/-- An edge that only reads, in IDLE, in EMIT, and with a byte that DEC does not accept (R66). -/
theorem witness_EdgePriorities_read : ({ decRd := true } : PortIn).decRd = true ∧ ({ decRd := true } : PortIn).rst = false ∧
    ({ decRd := true } : PortIn).encLoad = false ∧ emitting.enc.state = .emit ∧ ({ decRd := true } : PortIn).encOutReady = false ∧
    ({ decRd := true, decInValid := true } : PortIn).decInValid = true ∧ failed.dec.inReady = false := by decide

/-- An edge that only reads answers the value; with dec_clr the same edge clears it (R66). -/
theorem test_edge_read : ∃ t, clockEdge { decRd := true } (withDec .ready 0 0 5) = .next t ∧
    t.outcome = .ok (.value 5) ∧ ∃ u, clockEdge { decRd := true, decClr := true } (withDec .ready 0 0 5) = .next u ∧ u.dec.value = 0 :=
  ⟨_, rfl, rfl, _, rfl, rfl⟩

theorem witness_ErrorPulsesMarkTheirStep :
    (∃ t, step { beforeLastByte with host := [.request (.dec 0b001 8)] } = .next t ∧ t.decErr = true) ∧
    ∃ t, step { emitting with host := [.request (.enc 0b00010 0)] } = .next t ∧ t.encErr = true :=
  ⟨⟨_, rfl, rfl⟩, _, rfl, rfl⟩

theorem witness_StatusOutputs : (withDec .ready 0 0 5).dec.state = .ready ∧ (withDec .ready 0 0 5).resetDone = true ∧
    ∃ t, exec (.decAccept 5) State.reset = .next t ∧ t.outcome = .ok (.done true) :=
  ⟨rfl, rfl, _, rfl, rfl⟩

theorem witness_EncodeEmitsReferenceBytes : State.reset.resetDone = true ∧ State.reset.enc.state = .idle ∧ 0 < encodedSize 247 ∧
    emitting.enc.state ≠ .idle := by decide

theorem witness_EncodeCapFailsAfterCapBytes : State.reset.resetDone = true ∧ State.reset.enc.state = .idle ∧ encodedSize 505 ≤ 3 ∧ 2 < encodedSize 505 := by decide

theorem witness_EncoderLaws : encodeBytes 505 = 0xF9 :: [0x01, 0x01] ∧ encodedSize 505 ≠ 1 ∧ 3 ≤ encodedSize 504 ∧
    encodeBytes 247 = 0xF7 :: [] := by decide

theorem witness_RoundTrip : State.reset.resetDone = true ∧ State.reset.dec.state = .notStarted ∧ 8 < encodedSize 0xFFFFFFFFFFFFFFFF := by
  decide

theorem witness_DecodeAgreesWithReference : State.reset.resetDone = true ∧ decodeBytes [0xF9, 0x01, 0x01, 0x77] = .ok (505, 3) ∧
    decodeBytes [0xF9, 0x01] = .err .tooFewBytes ∧
    decodeBytes [0xFF, 0xFF, 0xFF, 0xFF, 0xFF, 0xFF, 0xFF, 0xFF, 0x08] = .err .valueTooLarge := by decide

/-- R92's worked example, and the two errors. -/
theorem witness_StreamingEquivalence : State.reset.resetDone = true ∧ State.reset.dec.state = .notStarted ∧
    decodeBytes [[], [0xF9], [], [0x01, 0x01, 0xAA], [0xBB]].flatten = .ok (505, 3) ∧
    decodeBytes [[0xFF, 0xFF, 0xFF, 0xFF, 0xFF], [0xFF, 0xFF, 0xFF, 0x08]].flatten = .err .valueTooLarge ∧
    decodeBytes [[], []].flatten = .err .tooFewBytes := by decide

/-- R94's worked examples. -/
theorem witness_DecodeBufChecksRange : State.reset.resetDone = true ∧ (([0xF8, 0x01] : List Byte).length : Int) < 2 + 1 ∧
    ([0x09, 0x09, 0xF8, 0x01, 0x02] : List Byte) = [0x09, 0x09] ++ [0xF8, 0x01, 0x02] ++ [] ∧
    (2 : Int) = ([0x09, 0x09] : List Byte).length ∧ (3 : Int) = ([0xF8, 0x01, 0x02] : List Byte).length := by decide

/-- Canonical and over-long bytes (R59, R100). -/
theorem witness_ReencodingNeedsCanonicalInput : decodeBytes [0xF8, 0x00] = .ok (248, 2) ∧
    decodeBytes [0xFA, 0x00, 0x00, 0x07] = .ok (255, 4) ∧ decodeBytes [0xF9, 0x01, 0x00] = .ok (504, 3) := by decide

theorem witness_SignedRoundTrip : State.reset.resetDone = true ∧ State.reset.enc.state = .idle ∧
    (decodeExpansion [0xF9] State.reset).2 = .err .tooFewBytes ∧
    (decodeExpansion [0xF8, 0x07] State.reset).2 = .ok (255, 2) := by decide

/-- R108's worked example: -128 from F8 07; the record is SGN.TOS's (log entry 2). -/
theorem test_decode_signed : (decodeSignedExpansion [0xF8, 0x07] State.reset).2 = .ok (-128, 2) ∧
    (decodeSignedExpansion [0xF8, 0x07] State.reset).1.outcome = .ok (.signed (-128)) := by decide

theorem witness_InstancesShareNothing : (∃ k', Bank.issue 0 (.encLoad 505) { blocks := [State.reset, failed] } = .next k') ∧ 1 ≠ 0 :=
  ⟨⟨_, rfl⟩, by decide⟩

theorem witness_ConcurrentUseIsRefused : drivesDec (.decAccept 1) = true ∧ drivesDec .decValue = true ∧
    0 < ({ blocks := [State.reset, failed] } : Bank).blocks.length ∧ (∀ s ∈ [State.reset, failed], s.resetDone = true) ∧
    drivesDec .encEmit = false ∧ drivesEnc (.decAccept 1) = false := by decide

/-- A turn of three whose last request meets its first, and one of three in which no two meet. -/
theorem witness_ConcurrentUseIsRefused_three :
    ([(0, .decAccept 1), (1, .encEmit), (0, .decValue)] : List (Nat × Instr)) =
      [] ++ (0, .decAccept 1) :: [(1, .encEmit)] ++ (0, .decValue) :: [] ∧
    (∀ r ∈ ([(0, .decAccept 1), (0, .encEmit), (1, .decValue)] : List (Nat × Instr)), r.1 < 2) ∧
    ([(0, .decAccept 1), (0, .encEmit), (1, .decValue)] : List (Nat × Instr)).Pairwise (fun a b => a.1 ≠ b.1 ∨
      (drivesDec a.2 = false ∨ drivesDec b.2 = false) ∧ (drivesEnc a.2 = false ∨ drivesEnc b.2 = false)) := by decide

theorem witness_FeedTakesOneBytePerStep : (withHost [.feed [0xF8, 0x01]]).host = .feed [0xF8, 0x01] :: [] ∧
    (withHost [.feed [0xF8, 0x01]]).resetDone = true ∧ (withHost [.feed [0xF8, 0x01]]).dec.inReady = true ∧
    failed.dec.inReady = false ∧ (withHost [.feed []]).host = .feed [] :: [] := by decide

/-- A feed that ends on a value, one that ends with its bytes, and one that fails. -/
theorem witness_FeedRunsToItsResult : (withHost [.feed [0xF8, 0x01, 0x02]]).host = .feed [0xF8, 0x01, 0x02] :: [] ∧
    (withHost [.feed [0xF8]]).resetDone = true ∧ (withHost [.feed [0xF8]]).dec.inReady = true ∧
    (feed [0xF8, 0x01, 0x02] State.reset).2 = 2 ∧ (feed [0xF8] State.reset).2 = 1 ∧
    (feed [0x08] beforeLastByte).1.dec.state = .failed := by decide

theorem witness_PseudoOperationsNeedReset : (State.powerUp [.feed [0x05]]).resetDone = false ∧
    (State.powerUp [.feed [0x05]]).host = .feed [0x05] :: [] ∧ ([0x05] : List Byte) ≠ [] :=
  ⟨rfl, rfl, by decide⟩

end Sys2Proof.Tests
end

/-! ## What one step does, by the host's next action (R5, R6, R67) -/

namespace Sys2Proof.Machine

theorem step_of_host_nil {s : State} (hh : s.host = []) : step s = .next s.newCycle := by
  simp [step, hh]

theorem step_of_request_op {s : State} {r : Request} {i : Instr} {rest : List Byte} {later : List HostAction}
    (hh : s.host = .request r :: later) (hd : decode s.enc.state r = .op i rest) :
    step s = exec i (s.newCycle.later rest later) := by
  simp [step, hh, hd]

theorem step_of_request_reject {s : State} {r : Request} {why : NoRequest} {later : List HostAction}
    (hh : s.host = .request r :: later) (hd : decode s.enc.state r = .reject why) :
    step s = .next (s.newCycle.later [] later) := by
  simp [step, hh, hd]

theorem step_of_edge {s : State} {p : PortIn} {later : List HostAction} (hh : s.host = .edge p :: later) :
    step s = clockEdge p (s.newCycle.later [] later) := by
  simp [step, hh]

theorem step_of_feed {s : State} {span : List Byte} {later : List HostAction} (hh : s.host = .feed span :: later)
    (hr : s.resetDone = true) : step s = .next (feedStep span (s.newCycle.later [] later)) := by
  simp [step, hh, State.operate_of_reset, hr]

theorem runSteps_succ {s t : State} (k : Nat) (h : step s = .next t) : runSteps (k + 1) s = runSteps k t := by
  simp [runSteps, h]

/-- The bookkeeping of a step as one record update. -/
theorem newCycle_later_eq (s : State) (rest : List Byte) (later : List HostAction) :
    s.newCycle.later rest later = { s with
      decErr := false
      encErr := false
      draw := s.draw + 1
      host := if rest = [] then later else .request (.wire rest) :: later } := by
  simp [State.later, State.newCycle]

/-- The loop test of a feed, with its condition as a proposition. -/
theorem feedNext_eq (rest : List Byte) (s : State) :
    s.feedNext rest = { s with host := if s.dec.inReady = true ∧ rest ≠ [] then .feed rest :: s.host else s.host } := by
  simp [State.feedNext]

theorem exec_decAccept {s : State} (b : Byte) (hr : s.resetDone = true) : exec (.decAccept b) s = .next (decAccept b s) :=
  State.operate_of_reset (f := decAccept b) hr

end Sys2Proof.Machine

/-! ## Steps of a feed against the function `feed` (R91) -/

namespace Sys2Proof.Machine

/-- Two states with the same units, streams and recorded answer: they differ at most in a step's bookkeeping. -/
structure State.SameBlock (s t : State) : Prop where
  dec : s.dec = t.dec
  enc : s.enc = t.enc
  decIn : s.decIn = t.decIn
  encOut : s.encOut = t.encOut
  outcome : s.outcome = t.outcome

/-- DEC.ACCEPT does not look at the bookkeeping. -/
theorem decAccept_sameBlock {s t : State} (b : Byte) (h : s.SameBlock t) : (decAccept b s).SameBlock (decAccept b t) := by
  obtain ⟨dec, enc, decErr, encErr, decIn, encOut, outcome, resetDone, host, draw⟩ := s
  obtain ⟨rfl, rfl, rfl, rfl, rfl⟩ := h
  cases hs : t.dec.state
  · by_cases hb : b < Config.base <;> constructor <;> simp [decAccept, hs, acceptFirst, hb]
  · by_cases ha : Config.maxTail < accumulate t.dec.acc b
    · constructor <;> simp [decAccept, hs, acceptTail, ha]
    · by_cases h0 : t.dec.remaining - 1#4 = 0#4 <;> constructor <;> simp [decAccept, hs, acceptTail, ha, h0]
  · constructor <;> simp [decAccept, hs]
  · constructor <;> simp [decAccept, hs]

theorem State.SameBlock.trans {s t u : State} (h : s.SameBlock t) (h' : t.SameBlock u) : s.SameBlock u :=
  ⟨h.dec.trans h'.dec, h.enc.trans h'.enc, h.decIn.trans h'.decIn, h.encOut.trans h'.encOut, h.outcome.trans h'.outcome⟩

/-- Where the loop test goes on, a step is DEC.ACCEPT of the next byte, after the step's bookkeeping, and the next loop test. -/
theorem step_of_feedNext_cons {s : State} (b : Byte) (rest : List Byte) (hr : s.resetDone = true) (hin : s.dec.inReady = true) :
    ∃ c, c.SameBlock s ∧ c.resetDone = true ∧ c.host = s.host ∧
      step (s.feedNext (b :: rest)) = .next ((decAccept b c).feedNext rest) := by
  refine ⟨(s.feedNext (b :: rest)).newCycle.later [] s.host, ⟨rfl, rfl, rfl, rfl, rfl⟩, hr, rfl, ?_⟩
  rw [step_of_feed (s := s.feedNext (b :: rest)) (span := b :: rest) (later := s.host) (by simp [hin]) hr]
  simp [feedStep, offer, hin]

/-- From the loop test on, the steps of a feed take DEC where `feed` takes it, one step for each byte, and leave the script
behind the feed. -/
theorem runSteps_feedNext (rest : List Byte) {s t : State} (h : t.SameBlock s) (hr : t.resetDone = true) :
    ∃ w, runSteps (feed rest s).2 (t.feedNext rest) = .next w ∧ w.SameBlock (feed rest s).1 ∧ w.host = t.host := by
  induction rest generalizing s t with
  | nil => exact ⟨t.feedNext [], rfl, ⟨h.dec, h.enc, h.decIn, h.encOut, h.outcome⟩, by simp⟩
  | cons b rest ih =>
    cases hs : s.dec.inReady
    · rw [feed_of_not_inReady hs]
      exact ⟨t.feedNext (b :: rest), rfl, ⟨h.dec, h.enc, h.decIn, h.encOut, h.outcome⟩, by simp [h.dec, hs]⟩
    · obtain ⟨c, hc, hcr, hch, hstep⟩ := step_of_feedNext_cons b rest hr (by rw [h.dec, hs])
      obtain ⟨w, hw, hsame, hhost⟩ := ih (decAccept_sameBlock b (hc.trans h)) (by simpa [decAccept_frame] using hcr)
      rw [feed_cons_of_inReady hs, runSteps_succ _ hstep]
      exact ⟨w, hw, hsame, by simpa [decAccept_frame, hch] using hhost⟩

/-- The steps of a DEC.FEED that the host is at take DEC where `feed` takes it. -/
theorem runSteps_feed {span : List Byte} {later : List HostAction} {s : State} (hh : s.host = .feed span :: later)
    (hr : s.resetDone = true) (hne : span ≠ []) (hin : s.dec.inReady = true) :
    ∃ w, runSteps (feed span s).2 s = .next w ∧ w.SameBlock (feed span s).1 ∧ w.host = later := by
  have hs : ({ s with host := later } : State).feedNext span = s := by simp [feedNext_eq, hin, hne, ← hh]
  simpa [hs] using runSteps_feedNext span (s := s) (t := { s with host := later }) ⟨rfl, rfl, rfl, rfl, rfl⟩ hr

/-- The DEC.ACCEPTs of the bytes that a feed consumes, as a sequence of operations. -/
theorem runOps_decAccept_feed (span : List Byte) {s : State} (hr : s.resetDone = true) :
    runOps ((span.take (feed span s).2).map .decAccept) s = .next (feed span s).1 := by
  induction span generalizing s with
  | nil => rfl
  | cons b bs ih =>
    cases hs : s.dec.inReady
    · rw [feed_of_not_inReady hs]; rfl
    · rw [feed_cons_of_inReady hs, List.take_succ_cons, List.map_cons, runOps_cons]
      exact ⟨_, exec_decAccept b hr, ih (by simpa [decAccept_frame] using hr)⟩

end Sys2Proof.Machine

/-! ## The rows W2 to W9: the header in the row's step, the tail in the steps after it (R52, R55) -/

namespace Sys2Proof.Machine

/-- Where a row's header `0xF8 + (k - 1)` leaves a DEC that has not started: `k` tail bytes are missing and come next. -/
def State.headerTaken (k : Nat) (tail : List Byte) (s : State) : State :=
  { s with
    dec := { state := .awaitingTail, remaining := BitVec.ofNat 4 k, acc := 0, value := s.dec.value }
    decIn := s.decIn ++ [BitVec.ofNat 8 (248 + (k - 1))]
    outcome := .ok (.done false)
    host := .feed tail :: s.host }

theorem exec_headed {w k : Nat} {i : Instr} {x : BitVec w} {s : State} (hi : i.span = headed k x) (h1 : 1 ≤ k) (h8 : k ≤ 8)
    (hr : s.resetDone = true) (hs : s.dec.state = .notStarted) : exec i s = .next (s.headerTaken k (tailBytes k x)) := by
  have hheader : (Config.base + BitVec.ofNat 8 (k - 1)).toNat = 248 + (k - 1) := by
    simp [Config.base]; omega
  have hbase : ¬ Config.base + BitVec.ofNat 8 (k - 1) < Config.base := by rw [lt_base_iff, hheader]; omega
  have hlen : tailLen (Config.base + BitVec.ofNat 8 (k - 1)) = k := by rw [tailLen_of_header hbase, hheader]; omega
  have hbyte : Config.base + BitVec.ofNat 8 (k - 1) = BitVec.ofNat 8 (248 + (k - 1)) := (BitVec.ofNat_add ..).symm
  have hne : tailBytes k x ≠ [] := List.ne_nil_of_length_pos (by rw [length_tailBytes]; omega)
  have haccept : decAccept (Config.base + BitVec.ofNat 8 (k - 1)) s = { s with
      dec := { state := .awaitingTail, remaining := BitVec.ofNat 4 k, acc := 0, value := s.dec.value }
      decIn := s.decIn ++ [BitVec.ofNat 8 (248 + (k - 1))]
      outcome := .ok (.done false) } := by
    simp [decAccept, hs, acceptFirst, hbase, hlen, ← hbyte, State.setDec, State.takeIn, State.answer]
  rw [exec_of_span s (by simp [hi, headed]), State.operate_of_reset hr, hi, headed, offer, haccept, feedNext_eq]
  simp [State.headerTaken, Dec.inReady, hne]

/-- The steps that give a tail of `k` bytes to a DEC that has taken its header: DEC completes 248 + tail on the last of them,
or overflows. -/
theorem runSteps_headerTaken {tail : List Byte} {k : Nat} {s : State} (hk : tail.length = k) (h1 : 1 ≤ k) (h8 : k ≤ 8)
    (hr : s.resetDone = true) : ∃ u, runSteps k (s.headerTaken k tail) = .next u ∧
      u.decIn = s.decIn ++ BitVec.ofNat 8 (248 + (k - 1)) :: tail ∧ u.host = s.host ∧
      (bigEndian tail ≤ 2 ^ 64 - 1 - 248 →
        u.dec = { state := .ready, remaining := 0, acc := BitVec.ofNat 64 (bigEndian tail),
                  value := BitVec.ofNat 64 (248 + bigEndian tail) } ∧ u.outcome = .ok (.done true)) ∧
      (2 ^ 64 - 1 - 248 < bigEndian tail →
        u.dec = { s.dec with state := .failed, remaining := 1, acc := BitVec.ofNat 64 (bigEndian tail) } ∧
        u.outcome = .err .valueTooLarge) := by
  have hrem : (s.headerTaken k tail).dec.remaining.toNat = k := by
    simp [State.headerTaken]; omega
  have hacc : (s.headerTaken k tail).dec.acc.toNat = 0 := rfl
  obtain ⟨hcount, -, hbig, hsmall⟩ := feed_whole_tail tail (s.headerTaken k tail) rfl (by omega) (by omega) (by omega)
    (by rw [hacc]; exact Nat.pow_pos (by decide))
  obtain ⟨-, hin, -⟩ := feed_consumed tail (s.headerTaken k tail)
  obtain ⟨u, hu, hsame, hhost⟩ := runSteps_feed (s := s.headerTaken k tail) rfl hr
    (List.ne_nil_of_length_pos (by omega)) rfl
  simp only [hacc, Nat.zero_mul, Nat.zero_add] at hbig hsmall
  rw [hcount, hk] at hu
  rw [hcount, List.take_length] at hin
  refine ⟨u, hu, ?_, hhost, fun h => ?_, fun h => ?_⟩
  · rw [hsame.decIn, hin]; simp [State.headerTaken]
  · obtain ⟨-, hout, hdec⟩ := hsmall h
    exact ⟨by rw [hsame.dec, hdec, Nat.add_comm 248], hsame.outcome.trans hout⟩
  · obtain ⟨-, hout, hdec⟩ := hbig h
    exact ⟨hsame.dec.trans hdec, hsame.outcome.trans hout⟩

/-- The tail bytes of an operand of exactly `k` bytes spell the operand. -/
theorem bigEndian_tailBytes_of_width {w k : Nat} (x : BitVec w) (hw : w = 8 * k) : bigEndian (tailBytes k x) = x.toNat := by
  subst hw
  rw [bigEndian_tailBytes, Nat.mod_eq_of_lt]
  simpa [Nat.pow_mul] using x.isLt

end Sys2Proof.Machine

/-! ## The obligations -/

namespace Sys2Proof.Machine

/-- Settles O12: the header in the row's step, then the tail, which at 7 bytes or fewer is below MAX. -/
theorem headedRowsComplete : Obligations.HeadedRowsComplete := by
  intro s hr hs completes
  have row : ∀ {w k : Nat} (i : Instr) (x : BitVec w), i.span = headed k x → 1 ≤ k → k ≤ 7 → w = 8 * k →
      completes i (k + 1) x.toNat := by
    intro w k i x hi h1 h7 hw
    have hx := bigEndian_tailBytes_of_width x hw
    obtain ⟨u, hu, hin, hhost, hsmall, -⟩ :=
      runSteps_headerTaken (length_tailBytes k x) h1 (by omega : k ≤ 8) hr
    have hle : x.toNat ≤ 2 ^ 64 - 1 - 248 := by
      have := Nat.pow_le_pow_right (n := 2) (by decide) (by omega : w ≤ 56)
      have := x.isLt
      omega
    rw [hx] at hsmall
    obtain ⟨hdec, hout⟩ := hsmall hle
    exact ⟨tailBytes k x, s.headerTaken k (tailBytes k x), u, length_tailBytes k x, hx, exec_headed hi h1 (by omega) hr hs,
      rfl, rfl, rfl, rfl, hu, hdec, hout, hin, hhost⟩
  exact ⟨fun x => row (k := 1) (.w2 x) x rfl (by decide) (by decide) rfl,
    fun x => row (k := 2) (.w3 x) x rfl (by decide) (by decide) rfl,
    fun x => row (k := 3) (.w4 x) x rfl (by decide) (by decide) rfl,
    fun x => row (k := 4) (.w5 x) x rfl (by decide) (by decide) rfl,
    fun x => row (k := 5) (.w6 x) x rfl (by decide) (by decide) rfl,
    fun x => row (k := 6) (.w7 x) x rfl (by decide) (by decide) rfl,
    fun x => row (k := 7) (.w8 x) x rfl (by decide) (by decide) rfl⟩

/-- Settles O13: the header in the row's step, then eight tail bytes, which decide at MAX. -/
theorem nineByteRowCompletesOrOverflows : Obligations.NineByteRowCompletesOrOverflows := by
  intro x s hr hs
  have hx : bigEndian (tailBytes 8 x) = x.toNat := bigEndian_tailBytes_of_width x rfl
  obtain ⟨u, hu, hin, hhost, hsmall, hbig⟩ :=
    runSteps_headerTaken (length_tailBytes 8 x) (by decide) (by decide : 8 ≤ 8) hr
  rw [hx, BitVec.ofNat_toNat, BitVec.setWidth_eq] at hsmall hbig
  exact ⟨tailBytes 8 x, s.headerTaken 8 (tailBytes 8 x), u, length_tailBytes 8 x, hx,
    exec_headed (k := 8) rfl (by decide) (by decide) hr hs, rfl, rfl, rfl, rfl, hu, hin, hhost, hsmall, hbig⟩

/-- Settles O15: the row's step is DEC.ACCEPT of the first byte and the loop test; the steps after it are those of a feed. -/
theorem wireRowIsItsAccepts : Obligations.WireRowIsItsAccepts := by
  intro i s hspan hr
  obtain ⟨b, bs, hi⟩ := List.exists_cons_of_ne_nil hspan
  obtain ⟨henc, -, hencOut, hreset, hhost, -⟩ := decAccept_frame b s
  have hu : (decAccept b s).resetDone = true := hreset.trans hr
  obtain ⟨w, hw, hsame, hwhost⟩ := runSteps_feedNext bs (s := decAccept b s) ⟨rfl, rfl, rfl, rfl, rfl⟩ hu
  obtain ⟨hfenc, -, hfencOut, -⟩ := feed_frame bs (decAccept b s)
  obtain ⟨-, -, hstop⟩ := feed_consumed bs (decAccept b s)
  refine ⟨b, bs, decAccept b s, (decAccept b s).feedNext bs, hi, exec_decAccept b hr, ?_, ?_,
    (feed bs (decAccept b s)).2, (feed bs (decAccept b s)).1, w, hw, ?_, ?_, hsame.dec, hsame.decIn, hsame.outcome, ?_, ?_, ?_⟩
  · rw [exec_of_span s hspan, State.operate_of_reset hr, hi, offer]
  · rw [feedNext_eq, hhost]
  · rw [hi, List.take_succ_cons, List.map_cons, runOps_cons]
    exact ⟨_, exec_decAccept b hr, runOps_decAccept_feed bs hu⟩
  · rw [hi, List.length_cons, hsame.dec]
    simpa using hstop
  · rw [hsame.enc, hfenc, henc]
  · rw [hsame.encOut, hfencOut, hencOut]
  · rw [hwhost, hhost]

/-- Settles O37: the rule of a step for a request and for an edge, with the bookkeeping written out. -/
theorem stepRunsDecodedInstruction : Obligations.StepRunsDecodedInstruction := by
  refine fun s later => ⟨fun r i rest hh hd _ => ?_, fun p hh => ?_⟩
  · rw [step_of_request_op hh hd, newCycle_later_eq]
  · rw [step_of_edge hh, newCycle_later_eq, if_pos rfl]

/-- Settles O38: without an action or a strobe a step is its bookkeeping alone. -/
theorem nothingHappensWithoutTheHost : Obligations.NothingHappensWithoutTheHost := by
  refine fun s r later why => ⟨fun hh => ?_, fun hh hd => ?_⟩
  · exact ⟨_, step_of_host_nil hh, rfl, rfl, rfl, rfl, hh⟩
  · exact ⟨_, step_of_request_reject hh hd, rfl, rfl, rfl, rfl, rfl⟩

/-- Settles O58: a step of a feed is DEC.ACCEPT and the loop test, or the bookkeeping alone. -/
theorem feedTakesOneBytePerStep : Obligations.FeedTakesOneBytePerStep := by
  intro span later s c hh hr hc
  have hstep : step s = .next (feedStep span c) := by
    rw [step_of_feed hh hr, newCycle_later_eq, if_pos rfl, hc]
  have hdec : c.dec = s.dec := by rw [hc]
  have hreset : c.resetDone = true := by rw [hc]; exact hr
  refine ⟨fun b bs hspan hin => ⟨decAccept b c, exec_decAccept b hreset, ?_⟩, fun hend => ?_⟩
  · have hhost : (decAccept b c).host = later := by simp [decAccept_frame, hc]
    simp only [hstep, feedStep, hdec, hin, if_true, hspan, offer, feedNext_eq, hhost]
  · obtain rfl | hin := hend
    · simp [hstep, feedStep, offer]
    · simp [hstep, feedStep, hdec, hin]

end Sys2Proof.Machine

/-! ## What an operation does to each unit and its stream -/

namespace Sys2Proof.Machine

/-- An operation resets DEC, leaves DEC and DEC_IN as they are, or does to them what one DEC.ACCEPT does. -/
theorem exec_dec_cases {i : Instr} {s t : State} (h : exec i s = .next t) (ht : t.resetDone = true) :
    t.dec = State.reset.dec ∨ s.resetDone = true ∧
      ((t.dec = s.dec ∧ t.decIn = s.decIn) ∨ ∃ b, t.dec = (decAccept b s).dec ∧ t.decIn = (decAccept b s).decIn) := by
  obtain ⟨-, rfl⟩ | ⟨x, -, rfl⟩ | ⟨u, -, rfl⟩ | ⟨hr, h⟩ := exec_cases h
  · exact .inl rfl
  · exact .inr ⟨ht, .inl ⟨rfl, rfl⟩⟩
  · exact .inr ⟨ht, .inl ⟨rfl, rfl⟩⟩
  obtain ⟨v, -, rfl⟩ | ⟨v, -, rfl⟩ | ⟨-, rfl⟩ | ⟨-, rfl⟩ | ⟨-, rfl⟩ | ⟨b, -, rfl⟩ | ⟨-, rfl⟩ | ⟨-, rfl⟩ | ⟨-, rfl⟩ := h
  · exact .inr ⟨hr, .inl ⟨rfl, rfl⟩⟩
  · exact .inr ⟨hr, .inl (by simp [encLoad_frame])⟩
  · exact .inr ⟨hr, .inl (by simp [encEmit_frame])⟩
  · exact .inr ⟨hr, .inl (by simp [encFull_frame])⟩
  · exact .inr ⟨hr, .inl ⟨rfl, rfl⟩⟩
  · exact .inr ⟨hr, .inr ⟨b, rfl, rfl⟩⟩
  · exact .inl rfl
  · exact .inr ⟨hr, .inl (by rw [decValue_eq]; exact ⟨rfl, rfl⟩)⟩
  · obtain ⟨-, e⟩ | ⟨b, rest, -, e⟩ := offer_cases i.span s
    · exact .inr ⟨hr, .inl (by rw [e]; exact ⟨rfl, rfl⟩)⟩
    · exact .inr ⟨hr, .inr ⟨b, by rw [e]; exact ⟨rfl, rfl⟩⟩⟩

/-- An operation resets ENC, leaves ENC and ENC_OUT as they are, or does to them what ENC.LOAD, ENC.EMIT or ENC.FULL does. -/
theorem exec_enc_cases {i : Instr} {s t : State} (h : exec i s = .next t) (ht : t.resetDone = true) :
    t.enc = State.reset.enc ∨ s.resetDone = true ∧
      ((t.enc = s.enc ∧ t.encOut = s.encOut) ∨ (∃ v, t = encLoad v s) ∨ t = encEmit s ∨ t = encFull s) := by
  obtain ⟨-, rfl⟩ | ⟨x, -, rfl⟩ | ⟨u, -, rfl⟩ | ⟨hr, h⟩ := exec_cases h
  · exact .inl rfl
  · exact .inr ⟨ht, .inl ⟨rfl, rfl⟩⟩
  · exact .inr ⟨ht, .inl ⟨rfl, rfl⟩⟩
  obtain ⟨v, -, rfl⟩ | ⟨v, -, rfl⟩ | ⟨-, rfl⟩ | ⟨-, rfl⟩ | ⟨-, rfl⟩ | ⟨b, -, rfl⟩ | ⟨-, rfl⟩ | ⟨-, rfl⟩ | ⟨-, rfl⟩ := h
  · exact .inr ⟨hr, .inl ⟨rfl, rfl⟩⟩
  · exact .inr ⟨hr, .inr (.inl ⟨v, rfl⟩)⟩
  · exact .inr ⟨hr, .inr (.inr (.inl rfl))⟩
  · exact .inr ⟨hr, .inr (.inr (.inr rfl))⟩
  · exact .inl rfl
  · exact .inr ⟨hr, .inl (by simp [decAccept_frame])⟩
  · exact .inr ⟨hr, .inl ⟨rfl, rfl⟩⟩
  · exact .inr ⟨hr, .inl (by rw [decValue_eq]; exact ⟨rfl, rfl⟩)⟩
  · exact .inr ⟨hr, .inl (by simp [offer_frame])⟩

/-! ### The arithmetic of the counts and of the accumulator -/

theorem count_sub_one_toNat {c : Count} (h : 1 ≤ c.toNat) : (c - 1).toNat = c.toNat - 1 := by
  bv_omega

theorem two_le_of_count_sub_one_ne_zero {c : Count} (h1 : 1 ≤ c.toNat) (h : c - 1 ≠ 0) : 2 ≤ c.toNat := by
  bv_omega

theorem eq_one_of_count_sub_one_eq_zero {c : Count} (h : c - 1 = 0) : c.toNat = 1 := by
  bv_omega

/-- Up to seven bytes in the accumulator leave room for one more. -/
theorem accumulate_toNat_of_lt {acc : Word} (b : Byte) (h : acc.toNat < 256 ^ 7) :
    (accumulate acc b).toNat = acc.toNat * 256 + b.toNat := by
  have := b.isLt
  rw [accumulate_toNat, Nat.mod_eq_of_lt (by omega)]

theorem two_pow_eight_mul (n : Nat) : 2 ^ (8 * n) = 256 ^ n := Nat.pow_mul 2 8 n

theorem tailLen_toNat (b : Byte) : (BitVec.ofNat 4 (tailLen b)).toNat = tailLen b := by
  have := tailLen_le b
  rw [BitVec.toNat_ofNat, Nat.mod_eq_of_lt (by omega)]

theorem encodedSize_toNat (v : Word) : (BitVec.ofNat 4 (encodedSize v)).toNat = encodedSize v := by
  have := encodedSize_bounds v
  rw [BitVec.toNat_ofNat, Nat.mod_eq_of_lt (by omega)]

end Sys2Proof.Machine

/-! ## The ranges of DEC and ENC (R31, R32) -/

namespace Sys2Proof.Machine

/-- DEC.ACCEPT keeps the ranges of DEC: a header starts them, and each tail byte makes the accumulator a byte longer. -/
theorem decAccept_inRange {s : State} (b : Byte) (hs : s.dec.inRange) : (decAccept b s).dec.inRange := by
  obtain ⟨-, -, e⟩ | ⟨-, -, e⟩ | ⟨-, -, e⟩ | ⟨-, -, -, e⟩ | ⟨h, -, hne, e⟩ | ⟨-, e⟩ := decAccept_cases b s <;>
    rw [e] <;> intro hw
  · simp at hw
  · have := one_le_tailLen b
    have := tailLen_le b
    simp only [tailLen_toNat]
    exact ⟨by omega, by omega, by simp⟩
  · simp at hw
  · simp at hw
  · obtain ⟨h1, h8, hacc⟩ := hs h
    have h2 := two_le_of_count_sub_one_ne_zero h1 hne
    rw [two_pow_eight_mul] at hacc
    have hroom := pow256_le (m := 8 - s.dec.remaining.toNat) (n := 7) (by omega)
    have hpow : 256 ^ (8 - (s.dec.remaining.toNat - 1)) = 256 ^ (8 - s.dec.remaining.toNat) * 256 := by
      rw [← Nat.pow_succ]; congr 1; omega
    have := b.isLt
    simp only [count_sub_one_toNat h1, accumulate_toNat_of_lt (acc := s.dec.acc) b (by omega), two_pow_eight_mul, hpow]
    omega
  · exact hs hw

/-- ENC.LOAD starts EMIT with the length that the selector finds and the number that needs it (R70, R71). -/
theorem encLoad_inRange {s : State} (v : Word) (hs : s.enc.inRange) : (encLoad v s).enc.inRange := by
  obtain ⟨-, e⟩ | ⟨-, e⟩ := encLoad_cases v s <;> rw [e]
  · intro _
    have hsize := encodedSize_bounds v
    simp only [encodedSize_toNat, encodedBody_toNat]
    by_cases hv : v.toNat < 248
    · simp only [encodedSize_of_lt hv, hv, if_true]
      omega
    · obtain ⟨h2, -, hfits, hmin⟩ := encodedSize_of_le (v := v) (by omega)
      simp only [hv, if_false]
      refine ⟨by omega, le_refl _, by omega, fun _ => by omega, fun _ => hfits, fun h3 => ?_⟩
      have := hmin (encodedSize v - 1) (by omega) (by omega)
      rw [show encodedSize v - 1 - 1 = encodedSize v - 2 by omega] at this
      omega
  · exact hs

/-- ENC.EMIT counts down to 1 and leaves EMIT instead of counting to 0. -/
theorem encEmit_inRange {s : State} (hs : s.enc.inRange) : (encEmit s).enc.inRange := by
  obtain ⟨h, e⟩ | ⟨-, e⟩ := encEmit_cases s <;> rw [e]
  · intro hemit
    have hne : s.enc.left - 1 ≠ 0 := fun h0 => by rw [if_pos h0] at hemit; cases hemit
    obtain ⟨h1, hle, hbody⟩ := hs h
    have := two_le_of_count_sub_one_ne_zero h1 hne
    simp only [count_sub_one_toNat h1]
    exact ⟨by omega, by omega, hbody⟩
  · exact hs

/-- ENC.FULL leaves EMIT. -/
theorem encFull_inRange {s : State} (hs : s.enc.inRange) : (encFull s).enc.inRange := by
  obtain ⟨-, e⟩ | ⟨-, e⟩ := encFull_cases s <;> rw [e]
  · intro hemit
    cases hemit
  · exact hs

theorem reset_dec_inRange : State.reset.dec.inRange := nofun

theorem reset_enc_inRange : State.reset.enc.inRange := nofun

/-- Every operation keeps the ranges, from every state that has them. -/
theorem exec_inRange {i : Instr} {s t : State} (hs : s.inRange) (h : exec i s = .next t) : t.inRange := by
  refine fun ht => ⟨?_, ?_⟩
  · obtain e | ⟨hr, ⟨e, -⟩ | ⟨b, e, -⟩⟩ := exec_dec_cases h ht <;> rw [e]
    · exact reset_dec_inRange
    · exact (hs hr).1
    · exact decAccept_inRange b (hs hr).1
  · obtain e | ⟨hr, ⟨e, -⟩ | ⟨v, e⟩ | e | e⟩ := exec_enc_cases h ht <;> rw [e]
    · exact reset_enc_inRange
    · exact (hs hr).2
    · exact encLoad_inRange v (hs hr).2
    · exact encEmit_inRange (hs hr).2
    · exact encFull_inRange (hs hr).2

/-- Settles O33: every operation keeps the ranges, and a step's bookkeeping does not touch the units. -/
theorem stepKeepsRanges : Obligations.StepKeepsRanges := fun _ _ hs h =>
  step_induction (fun _ _ _ => exec_inRange) (fun _ hs => hs) (fun _ _ _ hs => hs) (fun _ _ hs => hs) h hs

/-- Settles O34: RESET leaves neither AWAITING_TAIL nor EMIT. -/
theorem resetIsInRange : Obligations.ResetIsInRange := fun _ => ⟨reset_dec_inRange, reset_enc_inRange⟩

end Sys2Proof.Machine

/-! ## The agreement of the units with the bytes taken and emitted (R16, R17, R21, R22, R93) -/

namespace Sys2Proof.Machine

theorem decodeBytes_single {b : Byte} (h : b < Config.base) : decodeBytes [b] = .ok (b.setWidth 64, 1) := by
  simp [decodeBytes, h]

/-- `Decode` of a header with exactly its tail, at most MAX (R93). -/
theorem decodeBytes_header_ok {header : Byte} {tail : List Byte} (h : ¬ header < Config.base) (hlen : tail.length = tailLen header)
    (hmax : bigEndian tail ≤ Config.maxTail.toNat) :
    decodeBytes (header :: tail) = .ok (BitVec.ofNat 64 (bigEndian tail + 248), 1 + tail.length) := by
  simp [decodeBytes, h, ← hlen, hmax]

/-- `Decode` of a header with exactly its tail, above MAX (R93). -/
theorem decodeBytes_header_tooLarge {header : Byte} {tail : List Byte} (h : ¬ header < Config.base)
    (hlen : tail.length = tailLen header) (hmax : Config.maxTail.toNat < bigEndian tail) :
    decodeBytes (header :: tail) = .err .valueTooLarge := by
  simp [decodeBytes, h, ← hlen, hmax]

/-- Only eight tail bytes spell a number above MAX (R58). -/
theorem eight_le_length_of_maxTail_lt {tail : List Byte} (h : Config.maxTail.toNat < bigEndian tail) : 8 ≤ tail.length := by
  by_contra hlt
  have hpow := pow256_le (m := tail.length) (n := 7) (by omega)
  have hbound := bigEndian_lt tail
  have hmax : Config.maxTail.toNat = 2 ^ 64 - 1 - 248 := rfl
  omega

/-- One more byte in the accumulator is one more byte of the tail it spells (R54). -/
theorem accumulate_bigEndian {acc : Word} {tail : List Byte} (b : Byte) (hlen : tail.length ≤ 7) (hacc : acc.toNat = bigEndian tail) :
    (accumulate acc b).toNat = bigEndian (tail ++ [b]) := by
  have hbound := bigEndian_lt tail
  have hpow := pow256_le hlen
  rw [accumulate_toNat_of_lt b (by omega), bigEndian_append_singleton, hacc]

theorem add_baseWord_eq {a : Word} {n : Nat} (h : a.toNat = n) : a + Config.baseWord = BitVec.ofNat 64 (n + 248) := by
  rw [← h, BitVec.ofNat_add, BitVec.ofNat_toNat, BitVec.setWidth_eq]; rfl

/-! ### DEC -/

theorem decTracksStream_congr {s t : State} (hdec : t.dec = s.dec) (hin : t.decIn = s.decIn) :
    t.decTracksStream ↔ s.decTracksStream := by
  rw [State.decTracksStream, State.decTracksStream, hdec, hin]

theorem decTracksStream_of_reset {s : State} (h : s.dec = State.reset.dec) : s.decTracksStream := by
  simp [State.decTracksStream, h, State.reset]

/-- What is known of a DEC in AWAITING_TAIL and its stream after the next byte has joined them. -/
theorem decTracksStream_next_byte {s : State} (b : Byte) (hs : s.decTracksStream) (h : s.dec.state = .awaitingTail) :
    ∃ before header tail, s.decIn ++ [b] = before ++ header :: tail ∧ ¬ header < Config.base ∧ 1 ≤ s.dec.remaining.toNat ∧
      tail.length + (s.dec.remaining.toNat - 1) = tailLen header ∧ (accumulate s.dec.acc b).toNat = bigEndian tail := by
  simp only [State.decTracksStream, h] at hs
  obtain ⟨before, header, tail, hin, hheader, hlen, h1, hacc⟩ := hs
  have := tailLen_le header
  refine ⟨before, header, tail ++ [b], by simp [hin], hheader, h1, ?_, accumulate_bigEndian b (by omega) hacc⟩
  rw [List.length_append, List.length_singleton]; omega

/-- DEC.ACCEPT keeps the agreement of DEC with DEC_IN. -/
theorem decAccept_tracks {s : State} (b : Byte) (hs : s.decTracksStream) : (decAccept b s).decTracksStream := by
  obtain ⟨-, hb, e⟩ | ⟨-, hb, e⟩ | ⟨h, hmax, e⟩ | ⟨h, hmax, h0, e⟩ | ⟨h, hmax, hne, e⟩ | ⟨-, e⟩ := decAccept_cases b s <;> rw [e]
  · exact ⟨s.decIn, [b], rfl, decodeBytes_single hb⟩
  · exact ⟨s.decIn, b, [], rfl, hb, by simp only [tailLen_toNat, List.length_nil, Nat.zero_add],
      by simp only [tailLen_toNat, one_le_tailLen], rfl⟩
  · obtain ⟨before, header, tail, hin, hheader, h1, hlen, hacc⟩ := decTracksStream_next_byte b hs h
    rw [BitVec.lt_def, hacc] at hmax
    have := eight_le_length_of_maxTail_lt hmax
    have := tailLen_le header
    exact ⟨before, header :: tail, hin, by rw [List.length_cons]; omega, decodeBytes_header_tooLarge hheader (by omega) hmax⟩
  · obtain ⟨before, header, tail, hin, hheader, h1, hlen, hacc⟩ := decTracksStream_next_byte b hs h
    rw [BitVec.lt_def, hacc, Nat.not_lt] at hmax
    have := eq_one_of_count_sub_one_eq_zero h0
    refine ⟨before, header :: tail, hin, ?_⟩
    rw [decodeBytes_header_ok hheader (by omega) hmax, ← add_baseWord_eq hacc, List.length_cons, Nat.add_comm]
  · obtain ⟨before, header, tail, hin, hheader, h1, hlen, hacc⟩ := decTracksStream_next_byte b hs h
    have := two_le_of_count_sub_one_ne_zero h1 hne
    simp only [State.decTracksStream, h, count_sub_one_toNat h1]
    exact ⟨before, header, tail, hin, hheader, hlen, by omega, hacc⟩
  · exact hs

/-! ### ENC -/

theorem encTracksStream_congr {s t : State} (henc : t.enc = s.enc) (hout : t.encOut = s.encOut) :
    t.encTracksStream ↔ s.encTracksStream := by
  rw [State.encTracksStream, State.encTracksStream, henc, hout]

theorem encTracksStream_of_reset {s : State} (h : s.enc = State.reset.enc) : s.encTracksStream := fun hne =>
  absurd (by rw [h]; rfl) hne

/-- ENC.LOAD starts an encoding of which no byte is out yet. -/
theorem encLoad_tracks {s : State} (v : Word) (hs : s.encTracksStream) : (encLoad v s).encTracksStream := by
  obtain ⟨-, e⟩ | ⟨-, e⟩ := encLoad_cases v s <;> rw [e]
  · refine fun _ => ⟨s.encOut, v, by simp, encodedSize_toNat v, rfl, ?_, le_refl _⟩
    rw [encodedSize_toNat]
    exact (encodedSize_bounds v).1
  · exact hs

/-- ENC.EMIT emits the byte of the encoding that comes next, and ends after the last. -/
theorem encEmit_tracks {s : State} (hs : s.encTracksStream) : (encEmit s).encTracksStream := by
  obtain ⟨h, e⟩ | ⟨-, e⟩ := encEmit_cases s <;> rw [e]
  · intro hnotIdle
    have hne : s.enc.left - 1 ≠ 0 := fun h0 => hnotIdle (if_pos h0)
    obtain ⟨before, v, hout, hsize, hbody, h1, hle⟩ := hs (by rw [h]; decide)
    have := two_le_of_count_sub_one_ne_zero h1 hne
    have hnext := nextByte_of_loaded hsize hbody h1 hle
    have hcount : s.enc.size.toNat - (s.enc.left.toNat - 1) = s.enc.size.toNat - s.enc.left.toNat + 1 := by omega
    simp only [count_sub_one_toNat h1]
    refine ⟨before, v, ?_, hsize, hbody, by omega, by omega⟩
    rw [hcount, List.take_add_one, hnext, hout, List.append_assoc, Option.toList_some]
  · exact hs

/-- ENC.FULL leaves the byte it was offered out of ENC_OUT. -/
theorem encFull_tracks {s : State} (hs : s.encTracksStream) : (encFull s).encTracksStream := by
  obtain ⟨h, e⟩ | ⟨-, e⟩ := encFull_cases s <;> rw [e]
  · exact fun _ => hs (by rw [h]; decide)
  · exact hs

/-! ### Both units -/

/-- Every operation keeps the agreement, from every state that has it. -/
theorem exec_tracksStreams {i : Instr} {s t : State} (hs : s.tracksStreams) (h : exec i s = .next t) : t.tracksStreams := by
  refine fun ht => ⟨?_, ?_⟩
  · obtain e | ⟨hr, ⟨hdec, hin⟩ | ⟨b, hdec, hin⟩⟩ := exec_dec_cases h ht
    · exact decTracksStream_of_reset e
    · exact (decTracksStream_congr hdec hin).mpr (hs hr).1
    · exact (decTracksStream_congr hdec hin).mpr (decAccept_tracks b (hs hr).1)
  · obtain e | ⟨hr, ⟨henc, hout⟩ | ⟨v, e⟩ | e | e⟩ := exec_enc_cases h ht
    · exact encTracksStream_of_reset e
    · exact (encTracksStream_congr henc hout).mpr (hs hr).2
    · exact e ▸ encLoad_tracks v (hs hr).2
    · exact e ▸ encEmit_tracks (hs hr).2
    · exact e ▸ encFull_tracks (hs hr).2

/-- Settles O35: every operation keeps the agreement, and a step's bookkeeping does not touch the units or the streams. -/
theorem stepKeepsStreamsTracked : Obligations.StepKeepsStreamsTracked := fun _ _ hs h =>
  step_induction (fun _ _ _ => exec_tracksStreams) (fun _ hs => hs) (fun _ _ _ hs => hs) (fun _ _ hs => hs) h hs

/-- Settles O36: RESET starts both units afresh. -/
theorem resetTracksStreams : Obligations.ResetTracksStreams := fun _ =>
  ⟨decTracksStream_of_reset rfl, encTracksStream_of_reset rfl⟩

end Sys2Proof.Machine

/-! ## States that no operation tells apart (R30) -/

namespace Sys2Proof.Machine

/-- The fields that the abstraction of DEC keeps (R18). -/
theorem Dec.abs_eq_iff {d d' : Dec} : d.abs = d'.abs ↔ d.state = d'.state ∧
    (d.state = .awaitingTail → d.remaining = d'.remaining ∧ d.acc = d'.acc) ∧ (d.state = .ready → d.value = d'.value) := by
  cases h : d.state <;> cases h' : d'.state <;> simp [Dec.abs, h, h']

/-- The fields that the abstraction of ENC keeps (R23). -/
theorem Enc.abs_eq_iff {e e' : Enc} : e.abs = e'.abs ↔ e.state = e'.state ∧
    (e.state = .emit → e.size = e'.size ∧ e.left = e'.left ∧ e.body = e'.body) := by
  cases h : e.state <;> cases h' : e'.state <;> simp [Enc.abs, h, h']

namespace State.alike

variable {s t : State}

/-! ### What is the same in alike states -/

theorem decAbs (h : s.alike t) : s.dec.abs = t.dec.abs := h.1

theorem encAbs (h : s.alike t) : s.enc.abs = t.enc.abs := h.2.1

theorem others (h : s.alike t) : { s with dec := {}, enc := {} } = { t with dec := {}, enc := {} } := h.2.2

theorem decState (h : s.alike t) : s.dec.state = t.dec.state := (Dec.abs_eq_iff.mp h.decAbs).1

theorem encState (h : s.alike t) : s.enc.state = t.enc.state := (Enc.abs_eq_iff.mp h.encAbs).1

theorem inReady (h : s.alike t) : s.dec.inReady = t.dec.inReady := by
  rw [Dec.inReady, Dec.inReady, h.decState]

theorem resetDone (h : s.alike t) : s.resetDone = t.resetDone := (congrArg State.resetDone h.others :)

/-! ### The state operations keep states alike -/

theorem answer (o : OpOutcome) (h : s.alike t) : (s.answer o).alike (t.answer o) :=
  ⟨h.decAbs, h.encAbs, congrArg (State.answer o) h.others⟩

theorem setDec {d d' : Dec} (hd : d.abs = d'.abs) (h : s.alike t) : (s.setDec d).alike (t.setDec d') :=
  ⟨hd, h.encAbs, h.others⟩

theorem setEnc {e e' : Enc} (he : e.abs = e'.abs) (h : s.alike t) : (s.setEnc e).alike (t.setEnc e') :=
  ⟨h.decAbs, he, h.others⟩

theorem takeIn (b : Byte) (h : s.alike t) : (s.takeIn b).alike (t.takeIn b) :=
  ⟨h.decAbs, h.encAbs, congrArg (State.takeIn b) h.others⟩

theorem emitOut (b : Byte) (h : s.alike t) : (s.emitOut b).alike (t.emitOut b) :=
  ⟨h.decAbs, h.encAbs, congrArg (State.emitOut b) h.others⟩

theorem clearDec (h : s.alike t) : s.clearDec.alike t.clearDec :=
  ⟨rfl, h.encAbs, congrArg (fun u => { u with decErr := false }) h.others⟩

theorem clearEnc (h : s.alike t) : s.clearEnc.alike t.clearEnc :=
  ⟨h.decAbs, rfl, congrArg (fun u => { u with encErr := false }) h.others⟩

theorem raise (k : ErrorKind) (h : s.alike t) : (s.raise k).alike (t.raise k) := by
  cases k with
  | tooFewBytes => exact ⟨h.decAbs, rfl, congrArg (fun u => { u with encErr := true, outcome := .err .tooFewBytes }) h.others⟩
  | valueTooLarge => exact ⟨rfl, h.encAbs, congrArg (fun u => { u with decErr := true, outcome := .err .valueTooLarge }) h.others⟩
  | invalidRange => exact h.answer _
  | notReady => exact h.answer _

theorem startStreams (h : s.alike t) : s.startStreams.alike t.startStreams := by
  unfold State.startStreams
  rw [← h.resetDone]
  split
  · exact h
  · exact ⟨h.decAbs, h.encAbs, congrArg (fun u => { u with decIn := [], encOut := [], resetDone := true }) h.others⟩

theorem feedNext (rest : List Byte) (h : s.alike t) : (s.feedNext rest).alike (t.feedNext rest) := by
  unfold State.feedNext
  rw [← h.inReady]
  exact ⟨h.decAbs, h.encAbs,
    congrArg (fun u => { u with host := if s.dec.inReady && !rest.isEmpty then .feed rest :: u.host else u.host }) h.others⟩

/-! ### The operations of the block keep states alike -/

theorem blockReset (h : s.alike t) : (blockReset s).alike (blockReset t) :=
  h.startStreams.clearDec.clearEnc.answer _

theorem acceptFirst (b : Byte) (h : s.alike t) : (acceptFirst b s).alike (acceptFirst b t) := by
  unfold Machine.acceptFirst
  split
  · exact (h.setDec rfl).answer _
  · exact (h.setDec rfl).answer _

/-- A tail byte depends on the count and on the accumulator, which AWAITING_TAIL gives a meaning. -/
theorem acceptTail (b : Byte) (h : s.alike t) (hs : s.dec.state = .awaitingTail) : (acceptTail b s).alike (acceptTail b t) := by
  obtain ⟨hstate, hfields, -⟩ := Dec.abs_eq_iff.mp h.decAbs
  obtain ⟨hrem, hacc⟩ := hfields hs
  unfold Machine.acceptTail
  rw [← hrem, ← hacc]
  dsimp only
  split
  · exact (h.setDec (by simp [Dec.abs, ← hstate, hs, hrem])).raise _
  split
  · exact (h.setDec rfl).answer _
  · exact (h.setDec (by simp [Dec.abs, ← hstate, hs])).answer _

theorem decAccept (b : Byte) (h : s.alike t) : (decAccept b s).alike (decAccept b t) := by
  unfold Machine.decAccept
  rw [← h.decState]
  cases hs : s.dec.state with
  | notStarted => exact (h.takeIn b).acceptFirst b
  | awaitingTail => exact (h.takeIn b).acceptTail b hs
  | ready => exact h.answer _
  | failed => exact h.answer _

theorem decReset (h : s.alike t) : (decReset s).alike (decReset t) := h.clearDec.answer _

/-- DEC.VALUE reads the value in READY only, which gives it a meaning. -/
theorem decValue (h : s.alike t) : (decValue s).alike (decValue t) := by
  obtain ⟨hstate, -, hvalue⟩ := Dec.abs_eq_iff.mp h.decAbs
  unfold Machine.decValue
  rw [← hstate]
  cases hs : s.dec.state with
  | ready => rw [← hvalue hs]; exact h.answer _
  | notStarted => exact h.raise _
  | awaitingTail => exact h.raise _
  | failed => exact h.raise _

theorem offer (span : List Byte) (h : s.alike t) : (offer span s).alike (offer span t) := by
  cases span with
  | nil => exact h
  | cons b rest => exact (h.decAccept b).feedNext rest

theorem encSize (v : Word) (h : s.alike t) : (encSize v s).alike (encSize v t) := h.answer _

theorem encLoad (v : Word) (h : s.alike t) : (encLoad v s).alike (encLoad v t) := by
  unfold Machine.encLoad
  rw [← h.encState]
  cases s.enc.state with
  | idle => exact (h.setEnc rfl).answer _
  | emit => exact h.answer _
  | fault => exact h.answer _

/-- ENC.EMIT depends on the length, the count and the body, which EMIT gives a meaning: they make ENC the same. -/
theorem encEmit (h : s.alike t) : (encEmit s).alike (encEmit t) := by
  obtain ⟨hstate, hfields⟩ := Enc.abs_eq_iff.mp h.encAbs
  unfold Machine.encEmit
  rw [← hstate]
  cases hs : s.enc.state with
  | idle => exact h.answer _
  | emit =>
    obtain ⟨hsize, hleft, hbody⟩ := hfields hs
    have henc : s.enc = t.enc := by
      cases he : s.enc; cases he' : t.enc; simp_all
    rw [← henc]
    exact ((h.emitOut _).setEnc rfl).answer _
  | fault => exact h.answer _

theorem encFull (h : s.alike t) : (encFull s).alike (encFull t) := by
  unfold Machine.encFull
  rw [← h.encState]
  cases s.enc.state with
  | idle => exact h.answer _
  | emit => exact h.raise _
  | fault => exact h.answer _

theorem encReset (h : s.alike t) : (encReset s).alike (encReset t) := h.clearEnc.answer _

end State.alike

/-- Settles O32: each operation keeps states alike, since it looks only at the fields that the control states give a meaning. -/
theorem meaninglessFieldsAreUnobservable : Obligations.MeaninglessFieldsAreUnobservable := by
  intro i s s' t h hexec
  obtain ⟨rfl, rfl⟩ | ⟨x, rfl, rfl⟩ | ⟨u, rfl, rfl⟩ | ⟨hr, hop⟩ := exec_cases hexec
  · exact ⟨_, rfl, h.blockReset⟩
  · exact ⟨_, rfl, h.answer _⟩
  · exact ⟨_, rfl, h.answer _⟩
  have hr' : s'.resetDone = true := h.resetDone ▸ hr
  obtain ⟨v, rfl, rfl⟩ | ⟨v, rfl, rfl⟩ | ⟨rfl, rfl⟩ | ⟨rfl, rfl⟩ | ⟨rfl, rfl⟩ | ⟨b, rfl, rfl⟩ | ⟨rfl, rfl⟩ | ⟨rfl, rfl⟩ |
    ⟨hspan, rfl⟩ := hop
  · exact ⟨_, State.operate_of_reset hr', h.encSize v⟩
  · exact ⟨_, State.operate_of_reset hr', h.encLoad v⟩
  · exact ⟨_, State.operate_of_reset hr', h.encEmit⟩
  · exact ⟨_, State.operate_of_reset hr', h.encFull⟩
  · exact ⟨_, State.operate_of_reset hr', h.encReset⟩
  · exact ⟨_, State.operate_of_reset hr', h.decAccept b⟩
  · exact ⟨_, State.operate_of_reset hr', h.decReset⟩
  · exact ⟨_, State.operate_of_reset hr', h.decValue⟩
  · exact ⟨_, (exec_of_span s' hspan).trans (State.operate_of_reset hr'), h.offer i.span⟩

end Sys2Proof.Machine

/-! ## Instances (R33) -/

namespace Sys2Proof.Machine

/-- An issue that answers a next bank runs its operation on the addressed block and writes that block only. -/
theorem Bank.issue_eq_next {n : Nat} {i : Instr} {k k' : Bank} : k.issue n i = .next k' ↔
    ∃ s t, k.blocks[n]? = some s ∧ exec i s = .next t ∧ k' = { blocks := k.blocks.set n t } := by
  unfold Bank.issue
  cases hs : k.blocks[n]? with
  | none => simp
  | some s => cases ht : exec i s <;> simp [ht, eq_comm]

/-- Settles O56: an issue writes the addressed entry of the list of blocks and no other. -/
theorem instancesShareNothing : Obligations.InstancesShareNothing := by
  intro k k' n i h
  obtain ⟨s, t, hs, ht, rfl⟩ := Bank.issue_eq_next.mp h
  obtain ⟨hn, -⟩ := List.getElem?_eq_some_iff.mp hs
  exact ⟨List.length_set, ⟨s, t, hs, ht, List.getElem?_set_self hn⟩, fun m hm => List.getElem?_set_ne hm.symm⟩

end Sys2Proof.Machine

/-! ## Reset values (R34) and status outputs (R24, R25) -/

namespace Sys2Proof.Machine

/-- Settles O4: RESET, DEC.RESET and ENC.RESET write the same constants. -/
theorem resetValuesAreZero : Obligations.ResetValuesAreZero := by
  refine ⟨fun s => ⟨blockReset s, rfl, rfl, rfl, rfl, rfl, rfl, rfl, rfl, rfl, rfl, rfl, fun hr => ⟨?_, ?_⟩⟩, rfl, rfl⟩
  · exact ⟨decReset s, State.operate_of_reset hr, rfl⟩
  · exact ⟨encReset s, State.operate_of_reset hr, rfl⟩

theorem Dec.done_iff (d : Dec) : d.done = true ↔ d.state = .ready := by simp [Dec.done]

theorem Dec.faulted_iff (d : Dec) : d.faulted = true ↔ d.state = .failed := by simp [Dec.faulted]

theorem Dec.cause_eq (d : Dec) : d.cause = if d.state = .failed then 2 else 0 := by
  simp only [Dec.cause, Dec.faulted_iff, ErrorKind.code]

theorem Enc.isIdle_iff (e : Enc) : e.isIdle = true ↔ e.state = .idle := by simp [Enc.isIdle]

theorem Enc.outValid_iff (e : Enc) : e.outValid = true ↔ e.state = .emit := by simp [Enc.outValid]

theorem Enc.outLast_iff (e : Enc) : e.outLast = true ↔ e.state = .emit ∧ e.left = 1 := by
  simp [Enc.outLast, Enc.outValid, Enc.atLast]

theorem Enc.faulted_iff (e : Enc) : e.faulted = true ↔ e.state = .fault := by simp [Enc.faulted]

theorem Enc.cause_eq (e : Enc) : e.cause = if e.state = .fault then 1 else 0 := by
  simp only [Enc.cause, Enc.faulted_iff, ErrorKind.code]

/-- The `done` that a DEC.ACCEPT answers is dec_done after it (R24, R85). -/
theorem decAccept_done {b : Byte} {s : State} {d : Bool} (h : (decAccept b s).outcome = .ok (.done d)) :
    (decAccept b s).dec.done = d := by
  obtain ⟨-, -, e⟩ | ⟨-, -, e⟩ | ⟨-, -, e⟩ | ⟨-, -, -, e⟩ | ⟨hs, -, -, e⟩ | ⟨-, e⟩ := decAccept_cases b s <;>
    rw [e] at h ⊢ <;> cases h
  · rfl
  · rfl
  · rfl
  · simp [Dec.done, hs]

/-- enc_size_q has room for every length that the selector finds (R65, R70). -/
theorem outputs_encSizeQ_toNat (p : PortIn) (s : State) : (s.outputs p).encSizeQ.toNat = encodedSize p.encValue :=
  encodedSize_toNat p.encValue

/-- Settles O44: each output by the lemma about its function, and `done` by the cases of DEC.ACCEPT. -/
theorem statusOutputs : Obligations.StatusOutputs := by
  refine fun p s => ⟨Dec.inReady_iff s.dec, Dec.done_iff s.dec, Dec.faulted_iff s.dec, Dec.cause_eq s.dec, Enc.isIdle_iff s.enc,
    Enc.outValid_iff s.enc, Enc.outLast_iff s.enc, Enc.faulted_iff s.enc, Enc.cause_eq s.enc, fun b t d hexec hdone => ?_,
    fun hs => if_pos ((Dec.done_iff s.dec).mpr hs), ?_, outputs_encSizeQ_toNat p s, fun hr => ?_⟩
  · obtain ⟨-, rfl⟩ := State.operate_eq_next.mp hexec
    exact decAccept_done hdone
  · simp [State.outputs, ← Dec.done_iff]
  · rw [outputs_encSizeQ_toNat]
    exact State.operate_of_reset hr

end Sys2Proof.Machine

/-! ## What an operation does to each unit's side: its state, its error pulse and its stream (R2, R36, R37, R48) -/

namespace Sys2Proof.Machine

/-- `t` has the DEC side of `s`: the state of DEC, dec_err and DEC_IN. -/
structure State.SameDecSide (s t : State) : Prop where
  dec : t.dec = s.dec
  decErr : t.decErr = s.decErr
  decIn : t.decIn = s.decIn

/-- `t` has the ENC side of `s`: the state of ENC, enc_err and ENC_OUT. -/
structure State.SameEncSide (s t : State) : Prop where
  enc : t.enc = s.enc
  encErr : t.encErr = s.encErr
  encOut : t.encOut = s.encOut

variable {i : Instr} {s t : State}

/-- A wire-format row drives DEC and nothing else. -/
theorem drives_of_span (h : i.span ≠ []) : drivesDec i = true ∧ drivesEnc i = false := by
  revert h
  cases i <;> simp [Instr.span, drivesDec, drivesEnc]

/-- What an operation does to the DEC side: it leaves it as it is, as DEC.VALUE does, or it is one of the two resets, or it drives
DEC and does what one DEC.ACCEPT does. -/
theorem exec_decSide_cases (h : exec i s = .next t) :
    s.SameDecSide t ∨ (i = .reset ∧ t = blockReset s) ∨ (i = .decReset ∧ t = decReset s) ∨
    (drivesDec i = true ∧ i ≠ .decValue ∧ ∃ b, (decAccept b s).SameDecSide t ∧ t.outcome = (decAccept b s).outcome) := by
  obtain hreset | ⟨x, -, rfl⟩ | ⟨u, -, rfl⟩ | ⟨-, h⟩ := exec_cases h
  · exact .inr (.inl hreset)
  · exact .inl ⟨rfl, rfl, rfl⟩
  · exact .inl ⟨rfl, rfl, rfl⟩
  obtain ⟨v, -, rfl⟩ | ⟨v, -, rfl⟩ | ⟨-, rfl⟩ | ⟨-, rfl⟩ | ⟨-, rfl⟩ | ⟨b, rfl, rfl⟩ | hreset | ⟨-, rfl⟩ | ⟨hspan, rfl⟩ := h
  · exact .inl ⟨rfl, rfl, rfl⟩
  · obtain ⟨hdec, herr, hin, -⟩ := encLoad_frame v s
    exact .inl ⟨hdec, herr, hin⟩
  · obtain ⟨hdec, herr, hin, -⟩ := encEmit_frame s
    exact .inl ⟨hdec, herr, hin⟩
  · obtain ⟨hdec, herr, hin, -⟩ := encFull_frame s
    exact .inl ⟨hdec, herr, hin⟩
  · exact .inl ⟨rfl, rfl, rfl⟩
  · exact .inr (.inr (.inr ⟨rfl, nofun, b, ⟨rfl, rfl, rfl⟩, rfl⟩))
  · exact .inr (.inr (.inl hreset))
  · rw [decValue_eq]
    exact .inl ⟨rfl, rfl, rfl⟩
  · obtain ⟨hnil, -⟩ | ⟨b, rest, -, e⟩ := offer_cases i.span s
    · exact absurd hnil hspan
    · rw [e]
      exact .inr (.inr (.inr ⟨(drives_of_span hspan).1, fun hi => hspan (hi ▸ rfl), b, ⟨rfl, rfl, rfl⟩, rfl⟩))

/-- What an operation does to the ENC side: it leaves it as it is, or it is one of the operations that drive ENC. -/
theorem exec_encSide_cases (h : exec i s = .next t) :
    s.SameEncSide t ∨ (i = .reset ∧ t = blockReset s) ∨ (i = .encReset ∧ t = encReset s) ∨
    (∃ v, i = .encLoad v ∧ t = encLoad v s) ∨ (i = .encEmit ∧ t = encEmit s) ∨ (i = .encFull ∧ t = encFull s) := by
  obtain hreset | ⟨x, -, rfl⟩ | ⟨u, -, rfl⟩ | ⟨-, h⟩ := exec_cases h
  · exact .inr (.inl hreset)
  · exact .inl ⟨rfl, rfl, rfl⟩
  · exact .inl ⟨rfl, rfl, rfl⟩
  obtain ⟨v, -, rfl⟩ | hload | hemit | hfull | hreset | ⟨b, -, rfl⟩ | ⟨-, rfl⟩ | ⟨-, rfl⟩ | ⟨-, rfl⟩ := h
  · exact .inl ⟨rfl, rfl, rfl⟩
  · exact .inr (.inr (.inr (.inl hload)))
  · exact .inr (.inr (.inr (.inr (.inl hemit))))
  · exact .inr (.inr (.inr (.inr (.inr hfull))))
  · exact .inr (.inr (.inl hreset))
  · obtain ⟨henc, herr, hout, -⟩ := decAccept_frame b s
    exact .inl ⟨henc, herr, hout⟩
  · exact .inl ⟨rfl, rfl, rfl⟩
  · rw [decValue_eq]
    exact .inl ⟨rfl, rfl, rfl⟩
  · obtain ⟨henc, herr, hout, -⟩ := offer_frame i.span s
    exact .inl ⟨henc, herr, hout⟩

/-! ### The frame of each side -/

/-- An operation that does not drive DEC, and DEC.VALUE, leave the DEC side. -/
theorem exec_sameDecSide (h : exec i s = .next t) (hi : drivesDec i = false ∨ i = .decValue) : s.SameDecSide t := by
  obtain hsame | ⟨rfl, -⟩ | ⟨rfl, -⟩ | ⟨hd, hv, -⟩ := exec_decSide_cases h
  · exact hsame
  · simp [drivesDec] at hi
  · simp [drivesDec] at hi
  · simp [hd, hv] at hi

/-- An operation that does not drive ENC leaves the ENC side. -/
theorem exec_sameEncSide (h : exec i s = .next t) (hi : drivesEnc i = false) : s.SameEncSide t := by
  obtain hsame | ⟨rfl, -⟩ | ⟨rfl, -⟩ | ⟨v, rfl, -⟩ | ⟨rfl, -⟩ | ⟨rfl, -⟩ := exec_encSide_cases h
  · exact hsame
  · cases hi
  · cases hi
  · cases hi
  · cases hi
  · cases hi

/-- A DEC.ACCEPT pulses dec_err only with ValueTooLarge (R119). -/
theorem decAccept_decErr {b : Byte} (h : (decAccept b s).outcome ≠ .err .valueTooLarge) : (decAccept b s).decErr = s.decErr := by
  obtain ⟨-, -, e⟩ | ⟨-, -, e⟩ | ⟨-, -, e⟩ | ⟨-, -, -, e⟩ | ⟨-, -, -, e⟩ | ⟨-, e⟩ := decAccept_cases b s <;> rw [e] at h ⊢
  exact absurd rfl h

/-- dec_err changes only with ValueTooLarge or with a reset of DEC (R119, R121). -/
theorem exec_decErr (h : exec i s = .next t) (h1 : i ≠ .reset) (h2 : i ≠ .decReset) (h3 : t.outcome ≠ .err .valueTooLarge) :
    t.decErr = s.decErr := by
  obtain hsame | ⟨hi, -⟩ | ⟨hi, -⟩ | ⟨-, -, b, hside, hout⟩ := exec_decSide_cases h
  · exact hsame.decErr
  · exact absurd hi h1
  · exact absurd hi h2
  · exact hside.decErr.trans (decAccept_decErr (hout ▸ h3))

/-- enc_err changes only with TooFewBytes or with a reset of ENC (R119, R121). -/
theorem exec_encErr (h : exec i s = .next t) (h1 : i ≠ .reset) (h2 : i ≠ .encReset) (h3 : t.outcome ≠ .err .tooFewBytes) :
    t.encErr = s.encErr := by
  obtain hsame | ⟨hi, -⟩ | ⟨hi, -⟩ | ⟨v, -, rfl⟩ | ⟨-, rfl⟩ | ⟨-, rfl⟩ := exec_encSide_cases h
  · exact hsame.encErr
  · exact absurd hi h1
  · exact absurd hi h2
  · simp [encLoad_frame]
  · simp [encEmit_frame]
  · obtain ⟨-, e⟩ | ⟨-, e⟩ := encFull_cases s <;> rw [e] at h3 ⊢
    exact absurd rfl h3

/-! ### The streams (R36, R37, R131) -/

/-- After the first RESET only ENC.EMIT writes ENC_OUT. -/
theorem exec_encOut (h : exec i s = .next t) (hi : i ≠ .encEmit) (hr : s.resetDone = true) : t.encOut = s.encOut := by
  obtain hsame | ⟨-, rfl⟩ | ⟨-, rfl⟩ | ⟨v, -, rfl⟩ | ⟨he, -⟩ | ⟨-, rfl⟩ := exec_encSide_cases h
  · exact hsame.encOut
  · simp [blockReset_eq, hr]
  · rfl
  · simp [encLoad_frame]
  · exact absurd he hi
  · simp [encFull_frame]

theorem decAccept_decIn_grows (b : Byte) (s : State) : s.decIn <+: (decAccept b s).decIn := by
  cases hin : s.dec.inReady
  · obtain hs | hs := (Dec.inReady_eq_false_iff s.dec).mp hin <;> simp [decAccept, hs]
  · exact ⟨[b], (decAccept_decIn hin).symm⟩

theorem encEmit_encOut_grows (s : State) : s.encOut <+: (encEmit s).encOut := by
  obtain ⟨-, e⟩ | ⟨-, e⟩ := encEmit_cases s <;> rw [e]
  exact ⟨[s.enc.nextByte], rfl⟩

theorem exec_encOut_grows (hr : s.resetDone = true) (h : exec i s = .next t) : s.encOut <+: t.encOut := by
  by_cases hi : i = .encEmit
  · subst hi
    obtain ⟨-, rfl⟩ := State.operate_eq_next.mp h
    exact encEmit_encOut_grows s
  · rw [exec_encOut h hi hr]

theorem exec_decIn_grows (hr : s.resetDone = true) (h : exec i s = .next t) : s.decIn <+: t.decIn := by
  obtain hsame | ⟨-, rfl⟩ | ⟨-, rfl⟩ | ⟨-, -, b, hside, -⟩ := exec_decSide_cases h
  · rw [hsame.decIn]
  · simp [blockReset_eq, hr]
  · simp [decReset]
  · exact hside.decIn ▸ decAccept_decIn_grows b s

/-- Settles O31: an accepted byte and an emitted byte join the end of their stream; nothing else writes the streams then. -/
theorem streamsOnlyGrow : Obligations.StreamsOnlyGrow := fun _ _ _ hr h =>
  ⟨exec_encOut_grows hr h, exec_decIn_grows hr h⟩

/-! ### The frame of an operation -/

/-- Before the first RESET only RESET and the SGN functions answer, and after it no operation undoes it (R132). -/
theorem exec_resetDone (h : exec i s = .next t) (hi : i ≠ .reset) : t.resetDone = s.resetDone := by
  cases hr : s.resetDone
  · obtain ⟨he, -⟩ | ⟨x, -, rfl⟩ | ⟨u, -, rfl⟩ | ⟨hr', -⟩ := exec_cases h
    · exact absurd he hi
    · exact hr
    · exact hr
    · exact absurd hr' (by simp [hr])
  · exact (exec_bookkeeping h).1 hr

/-- A row puts nothing but its own tail before the host's script (log entry 3). -/
theorem exec_host_of_span {b : Byte} {bs : List Byte} (h : exec i s = .next t) (hspan : i.span = b :: bs) :
    t.host = s.host ∨ t.host = .feed bs :: s.host := by
  rw [exec_of_span s (by simp [hspan]), hspan] at h
  obtain ⟨-, rfl⟩ := State.operate_eq_next.mp h
  have hhost : (decAccept b s).host = s.host := by simp [decAccept_frame]
  rw [offer, feedNext_eq, hhost]
  exact (ite_eq_or_eq ..).symm

/-- Settles O29: each clause by the frame lemma of its side, of the error pulses, of ENC_OUT or of the model's own fields. -/
theorem operationsChangeOnlyTheirUnit : Obligations.OperationsChangeOnlyTheirUnit := by
  intro i s t h
  obtain ⟨-, hhost, hdraw⟩ := exec_bookkeeping h
  have hdec (hi : drivesDec i = false ∨ i = .decValue) : t.dec = s.dec ∧ t.decErr = s.decErr ∧ t.decIn = s.decIn :=
    have hside := exec_sameDecSide h hi
    ⟨hside.dec, hside.decErr, hside.decIn⟩
  refine ⟨fun hi => hdec (.inl hi), fun hi => ?_, exec_resetDone h, hdraw, hhost, fun _ _ => exec_host_of_span h,
    fun hi => hdec (.inr hi), ?_, ?_, exec_encOut h, exec_decErr h, exec_encErr h⟩
  · have hside := exec_sameEncSide h hi
    exact ⟨hside.enc, hside.encErr, hside.encOut⟩
  · rintro rfl
    obtain ⟨-, rfl⟩ := State.operate_eq_next.mp h
    rfl
  · rintro rfl
    obtain ⟨-, rfl⟩ := State.operate_eq_next.mp h
    rfl

end Sys2Proof.Machine

/-! ## An operation on two states that share its unit (R48) -/

namespace Sys2Proof.Machine

variable {i : Instr} {s s' t : State}

/-! ### The operations of DEC look at DEC alone -/

theorem decAccept_of_dec_eq (b : Byte) (h : s'.dec = s.dec) :
    (decAccept b s').dec = (decAccept b s).dec ∧ (decAccept b s').outcome = (decAccept b s).outcome := by
  unfold decAccept
  rw [h]
  cases s.dec.state with
  | notStarted => by_cases hb : b < Config.base <;> simp [acceptFirst, hb, h]
  | awaitingTail =>
    by_cases ha : Config.maxTail < accumulate s.dec.acc b
    · simp [acceptTail, h, ha]
    · by_cases h0 : s.dec.remaining - 1#4 = 0#4 <;> simp [acceptTail, h, ha, h0]
  | ready => exact ⟨h, rfl⟩
  | failed => exact ⟨h, rfl⟩

theorem decValue_of_dec_eq (h : s'.dec = s.dec) :
    (decValue s').dec = (decValue s).dec ∧ (decValue s').outcome = (decValue s).outcome := by
  unfold decValue
  rw [h]
  cases s.dec.state with
  | ready => exact ⟨h, rfl⟩
  | notStarted => exact ⟨h, rfl⟩
  | awaitingTail => exact ⟨h, rfl⟩
  | failed => exact ⟨h, rfl⟩

theorem offer_of_dec_eq {span : List Byte} (hspan : span ≠ []) (h : s'.dec = s.dec) :
    (offer span s').dec = (offer span s).dec ∧ (offer span s').outcome = (offer span s).outcome := by
  cases span with
  | nil => exact absurd rfl hspan
  | cons b rest => exact decAccept_of_dec_eq b h

/-- An operation that does not drive ENC does the same to two equal DECs and answers the same. -/
theorem exec_of_dec_eq (h : exec i s = .next t) (hr' : s'.resetDone = true) (hi : drivesEnc i = false) (hdec : s'.dec = s.dec) :
    ∃ t', exec i s' = .next t' ∧ t'.dec = t.dec ∧ t'.outcome = t.outcome := by
  obtain ⟨rfl, -⟩ | ⟨x, rfl, rfl⟩ | ⟨u, rfl, rfl⟩ | ⟨-, hop⟩ := exec_cases h
  · cases hi
  · exact ⟨_, rfl, hdec, rfl⟩
  · exact ⟨_, rfl, hdec, rfl⟩
  obtain ⟨v, rfl, rfl⟩ | ⟨v, rfl, -⟩ | ⟨rfl, -⟩ | ⟨rfl, -⟩ | ⟨rfl, -⟩ | ⟨b, rfl, rfl⟩ | ⟨rfl, rfl⟩ | ⟨rfl, rfl⟩ |
    ⟨hspan, rfl⟩ := hop
  · exact ⟨_, State.operate_of_reset hr', hdec, rfl⟩
  · cases hi
  · cases hi
  · cases hi
  · cases hi
  · exact ⟨_, State.operate_of_reset hr', decAccept_of_dec_eq b hdec⟩
  · exact ⟨_, State.operate_of_reset hr', rfl, rfl⟩
  · exact ⟨_, State.operate_of_reset hr', decValue_of_dec_eq hdec⟩
  · exact ⟨_, (exec_of_span s' hspan).trans (State.operate_of_reset hr'), offer_of_dec_eq hspan hdec⟩

/-! ### The operations of ENC look at ENC alone -/

theorem encLoad_of_enc_eq (v : Word) (h : s'.enc = s.enc) :
    (encLoad v s').enc = (encLoad v s).enc ∧ (encLoad v s').outcome = (encLoad v s).outcome := by
  unfold encLoad
  rw [h]
  cases s.enc.state with
  | idle => exact ⟨rfl, rfl⟩
  | emit => exact ⟨h, rfl⟩
  | fault => exact ⟨h, rfl⟩

theorem encEmit_of_enc_eq (h : s'.enc = s.enc) :
    (encEmit s').enc = (encEmit s).enc ∧ (encEmit s').outcome = (encEmit s).outcome := by
  unfold encEmit
  rw [h]
  cases s.enc.state with
  | idle => exact ⟨h, rfl⟩
  | emit => exact ⟨rfl, rfl⟩
  | fault => exact ⟨h, rfl⟩

theorem encFull_of_enc_eq (h : s'.enc = s.enc) :
    (encFull s').enc = (encFull s).enc ∧ (encFull s').outcome = (encFull s).outcome := by
  unfold encFull
  rw [h]
  cases s.enc.state with
  | idle => exact ⟨h, rfl⟩
  | emit => simp [h]
  | fault => exact ⟨h, rfl⟩

/-- An operation that does not drive DEC does the same to two equal ENCs and answers the same. -/
theorem exec_of_enc_eq (h : exec i s = .next t) (hr' : s'.resetDone = true) (hi : drivesDec i = false) (henc : s'.enc = s.enc) :
    ∃ t', exec i s' = .next t' ∧ t'.enc = t.enc ∧ t'.outcome = t.outcome := by
  obtain ⟨rfl, -⟩ | ⟨x, rfl, rfl⟩ | ⟨u, rfl, rfl⟩ | ⟨-, hop⟩ := exec_cases h
  · cases hi
  · exact ⟨_, rfl, henc, rfl⟩
  · exact ⟨_, rfl, henc, rfl⟩
  obtain ⟨v, rfl, rfl⟩ | ⟨v, rfl, rfl⟩ | ⟨rfl, rfl⟩ | ⟨rfl, rfl⟩ | ⟨rfl, rfl⟩ | ⟨b, rfl, -⟩ | ⟨rfl, -⟩ | ⟨rfl, -⟩ |
    ⟨hspan, -⟩ := hop
  · exact ⟨_, State.operate_of_reset hr', henc, rfl⟩
  · exact ⟨_, State.operate_of_reset hr', encLoad_of_enc_eq v henc⟩
  · exact ⟨_, State.operate_of_reset hr', encEmit_of_enc_eq henc⟩
  · exact ⟨_, State.operate_of_reset hr', encFull_of_enc_eq henc⟩
  · exact ⟨_, State.operate_of_reset hr', rfl, rfl⟩
  · cases hi
  · cases hi
  · cases hi
  · simp [drives_of_span hspan] at hi

/-- Settles O30: no operation of one unit looks at the other, so each does the same from two states that share its unit. -/
theorem unitsDoNotObserveEachOther : Obligations.UnitsDoNotObserveEachOther := fun _ _ _ _ _ hr' h =>
  ⟨exec_of_dec_eq h hr', exec_of_enc_eq h hr'⟩

end Sys2Proof.Machine

/-! ## Turns of a bank (R46, R135) -/

namespace Sys2Proof.Machine

theorem requestsMeet_eq_false_iff {a b : Nat × Instr} : requestsMeet a b = false ↔ a.1 ≠ b.1 ∨
    (drivesDec a.2 = false ∨ drivesDec b.2 = false) ∧ (drivesEnc a.2 = false ∨ drivesEnc b.2 = false) := by
  simp [requestsMeet, or_iff_not_imp_left]

/-- `concurrent` compares every two requests of a turn. -/
theorem concurrent_eq_false_iff {rs : List (Nat × Instr)} :
    concurrent rs = false ↔ rs.Pairwise (fun a b => requestsMeet a b = false) := by
  induction rs with
  | nil => simp [concurrent]
  | cons r rs ih => simp [concurrent, ih]

/-- Two requests that meet make a turn concurrent, wherever they stand. -/
theorem concurrent_of_requestsMeet {a b : Nat × Instr} (before between after : List (Nat × Instr)) (h : requestsMeet a b = true) :
    concurrent (before ++ a :: between ++ b :: after) = true := by
  by_contra hc
  rw [Bool.not_eq_true, concurrent_eq_false_iff, List.pairwise_append] at hc
  obtain ⟨-, -, hcross⟩ := hc
  have hfalse := hcross a (by simp) b (by simp)
  simp [h] at hfalse

/-- After the first RESET of all blocks, requests on existing ones all run. -/
theorem Bank.issueAll_answers (rs : List (Nat × Instr)) {k : Bank} (hn : ∀ r ∈ rs, r.1 < k.blocks.length)
    (hk : ∀ s ∈ k.blocks, s.resetDone = true) : ∃ k', Bank.issueAll rs k = .next k' := by
  induction rs generalizing k with
  | nil => exact ⟨k, rfl⟩
  | cons r rs ih =>
    have hr := hn r List.mem_cons_self
    have hreset := hk _ (List.getElem_mem hr)
    obtain ⟨t, ht⟩ := exec_answers r.2 hreset
    have hissue : k.issue r.1 r.2 = .next { blocks := k.blocks.set r.1 t } :=
      Bank.issue_eq_next.mpr ⟨_, t, List.getElem?_eq_getElem hr, ht, rfl⟩
    rw [Bank.issueAll, hissue]
    refine ih (fun r' hr' => ?_) (fun s hs => ?_)
    · rw [List.length_set]
      exact hn r' (List.mem_cons_of_mem _ hr')
    · obtain hs | rfl := List.mem_or_eq_of_mem_set hs
      · exact hk s hs
      · exact (exec_bookkeeping ht).1 hreset

/-- Settles O57: two requests that drive one unit meet, which makes the turn concurrent; without such two all requests run. -/
theorem concurrentUseIsRefused : Obligations.ConcurrentUseIsRefused := by
  refine fun k rs => ⟨fun n i j before between after hrs hdrive => ?_, fun hn hk hpair => ?_⟩
  · have hmeet : requestsMeet (n, i) (n, j) = true := by simp [requestsMeet, hdrive]
    rw [Bank.turn, if_pos (hrs ▸ concurrent_of_requestsMeet before between after hmeet)]
  · have hfree : concurrent rs = false := concurrent_eq_false_iff.mpr (hpair.imp requestsMeet_eq_false_iff.mpr)
    rw [Bank.turn, if_neg (by simp [hfree])]
    exact Bank.issueAll_answers rs hn hk

end Sys2Proof.Machine

/-! ## The wire format: a first byte's pattern, the rows' bytes, and the decoder on them (R52, R53) -/

namespace Sys2Proof

open Machine

/-- A first byte has a pattern of R53 when its high bits are the pattern's, as numbers. -/
theorem hasPattern_shiftLeft_iff (n : Nat) {p : Byte} (hn : n ≤ 8) (hp : p.toNat < 2 ^ (8 - n)) (b : Byte) :
    Byte.hasPattern (BitVec.allOnes 8 <<< n) (p <<< n) b = true ↔ b.toNat / 2 ^ n = p.toNat := by
  have hpow : 2 ^ (8 - n) * 2 ^ n = 2 ^ 8 := by rw [← Nat.pow_add, Nat.sub_add_cancel hn]
  have hmask : b &&& BitVec.allOnes 8 <<< n = (b >>> n) <<< n := by
    ext i hi
    by_cases h : i < n
    · simp [h]
    · simp [h, Nat.add_sub_cancel' (Nat.le_of_not_lt h), -BitVec.reduceAllOnes, BitVec.getLsbD_eq_getElem hi]
  have hfits {q : Nat} (hq : q < 2 ^ (8 - n)) : q * 2 ^ n < 2 ^ 8 := hpow ▸ Nat.mul_lt_mul_of_pos_right hq (by positivity)
  have hb : b.toNat / 2 ^ n < 2 ^ (8 - n) := Nat.div_lt_of_lt_mul (by rw [Nat.mul_comm, hpow]; exact b.isLt)
  rw [Byte.hasPattern, beq_iff_eq, hmask, ← BitVec.toNat_inj, BitVec.toNat_shiftLeft, BitVec.toNat_shiftLeft,
    BitVec.toNat_ushiftRight, Nat.shiftLeft_eq, Nat.shiftLeft_eq, Nat.shiftRight_eq_div_pow, Nat.mod_eq_of_lt (hfits hb),
    Nat.mod_eq_of_lt (hfits hp), Nat.mul_left_inj (by positivity)]

theorem hasPattern_0vvvvvvv_iff (b : Byte) : Byte.hasPattern 0x80 0x00 b = true ↔ b.toNat / 128 = 0 :=
  hasPattern_shiftLeft_iff 7 (p := 0) (by decide) (by decide) b

theorem hasPattern_10vvvvvv_iff (b : Byte) : Byte.hasPattern 0xC0 0x80 b = true ↔ b.toNat / 64 = 2 :=
  hasPattern_shiftLeft_iff 6 (p := 2) (by decide) (by decide) b

theorem hasPattern_110vvvvv_iff (b : Byte) : Byte.hasPattern 0xE0 0xC0 b = true ↔ b.toNat / 32 = 6 :=
  hasPattern_shiftLeft_iff 5 (p := 6) (by decide) (by decide) b

theorem hasPattern_1110vvvv_iff (b : Byte) : Byte.hasPattern 0xF0 0xE0 b = true ↔ b.toNat / 16 = 14 :=
  hasPattern_shiftLeft_iff 4 (p := 14) (by decide) (by decide) b

theorem hasPattern_11110vvv_iff (b : Byte) : Byte.hasPattern 0xF8 0xF0 b = true ↔ b.toNat / 8 = 30 :=
  hasPattern_shiftLeft_iff 3 (p := 30) (by decide) (by decide) b

/-- The W1 row of a byte by its number: the patterns of R53 cut 0 to 247 into five ranges. -/
theorem decodeW1_eq (b : Byte) : decodeW1 b =
    if b.toNat < 128 then .w1_0vvvvvvv b
    else if b.toNat < 192 then .w1_10vvvvvv b
    else if b.toNat < 224 then .w1_110vvvvv b
    else if b.toNat < 240 then .w1_1110vvvv b
    else .w1_11110vvv b := by
  simp only [decodeW1, hasPattern_0vvvvvvv_iff, hasPattern_10vvvvvv_iff, hasPattern_110vvvvv_iff, hasPattern_1110vvvv_iff]
  repeat' (refine if_ctx_congr (by omega) (fun _ => rfl) (fun _ => ?_))
  rfl

theorem decodeWire_single {b : Byte} (bs : List Byte) (h : b < Config.base) : decodeWire (b :: bs) = .op (decodeW1 b) bs := by
  simp [decodeWire, h]

/-- A well-formed instruction of one byte is the W1 row of that byte (R53). -/
theorem decodeW1_of_span {i : Instr} {v : Byte} (hi : i.span = [v]) (hw : i.wellFormed = true) : v < Config.base ∧ decodeW1 v = i := by
  rw [decodeW1_eq, lt_base_iff]
  cases i
  case w1_0vvvvvvv u =>
    cases hi
    have h := (hasPattern_0vvvvvvv_iff v).mp hw
    exact ⟨by omega, if_pos (by omega)⟩
  case w1_10vvvvvv u =>
    cases hi
    have h := (hasPattern_10vvvvvv_iff v).mp hw
    exact ⟨by omega, by rw [if_neg (by omega), if_pos (by omega)]⟩
  case w1_110vvvvv u =>
    cases hi
    have h := (hasPattern_110vvvvv_iff v).mp hw
    exact ⟨by omega, by rw [if_neg (by omega), if_neg (by omega), if_pos (by omega)]⟩
  case w1_1110vvvv u =>
    cases hi
    have h := (hasPattern_1110vvvv_iff v).mp hw
    exact ⟨by omega, by rw [if_neg (by omega), if_neg (by omega), if_neg (by omega), if_pos (by omega)]⟩
  case w1_11110vvv u =>
    cases hi
    have h := (hasPattern_11110vvv_iff v).mp hw
    exact ⟨by omega, by rw [if_neg (by omega), if_neg (by omega), if_neg (by omega), if_neg (by omega)]⟩
  all_goals exact absurd (congrArg List.length hi) (by simp [Instr.span, headed, length_tailBytes])

/-- Below 248 every byte has its row, and the row carries the byte (R51, R53). -/
theorem decodeW1_span {b : Byte} (h : b < Config.base) : (decodeW1 b).span = [b] ∧ (decodeW1 b).wellFormed = true := by
  rw [lt_base_iff] at h
  rw [decodeW1_eq]
  split_ifs
  · exact ⟨rfl, (hasPattern_0vvvvvvv_iff b).mpr (by omega)⟩
  · exact ⟨rfl, (hasPattern_10vvvvvv_iff b).mpr (by omega)⟩
  · exact ⟨rfl, (hasPattern_110vvvvv_iff b).mpr (by omega)⟩
  · exact ⟨rfl, (hasPattern_1110vvvv_iff b).mpr (by omega)⟩
  · exact ⟨rfl, (hasPattern_11110vvv_iff b).mpr (by omega)⟩

theorem header_toNat {k : Nat} (h1 : 1 ≤ k) (h8 : k ≤ 8) : (Config.base + BitVec.ofNat 8 (k - 1)).toNat = 247 + k := by
  simp [Config.base]; omega

/-- The header of `k` tail bytes is no single byte, and tells `k` (R52, R53). -/
theorem header_spec {k : Nat} (h1 : 1 ≤ k) (h8 : k ≤ 8) :
    ¬ Config.base + BitVec.ofNat 8 (k - 1) < Config.base ∧ tailLen (Config.base + BitVec.ofNat 8 (k - 1)) = k := by
  have h := header_toNat h1 h8
  have hbase : ¬ Config.base + BitVec.ofNat 8 (k - 1) < Config.base := by rw [lt_base_iff, h]; omega
  exact ⟨hbase, by rw [tailLen_of_header hbase, h]; omega⟩

/-- A first byte that is no single byte is the header of its `tailLen` (R53). -/
theorem header_of_tailLen {b : Byte} (h : ¬ b < Config.base) : Config.base + BitVec.ofNat 8 (tailLen b - 1) = b := by
  apply BitVec.eq_of_toNat_eq
  rw [header_toNat (one_le_tailLen b) (tailLen_le b), tailLen_of_header h]
  rw [lt_base_iff] at h
  omega

/-- The decoder on a header with its whole tail, whatever bytes follow (R52, R61). -/
theorem decodeWire_headed {w k : Nat} (x : BitVec w) (h1 : 1 ≤ k) (h8 : k ≤ 8) (hw : w = 8 * k) (rest : List Byte) :
    decodeWire (headed k x ++ rest) = .op (decodeHeaded k x.toNat) rest := by
  obtain ⟨hbase, hlen⟩ := header_spec h1 h8
  have htake : (tailBytes k x ++ rest).take k = tailBytes k x := List.take_left' (length_tailBytes k x)
  have hdrop : (tailBytes k x ++ rest).drop k = rest := List.drop_left' (length_tailBytes k x)
  simp [headed, decodeWire, hbase, hlen, htake, hdrop, length_tailBytes, bigEndian_tailBytes_of_width x hw]

/-- The rows W2 to W9 carry their header and the tail bytes (R52). -/
theorem decodeHeaded_span {k : Nat} (t : Nat) (h1 : 1 ≤ k) (h8 : k ≤ 8) :
    (decodeHeaded k t).span = headed k (BitVec.ofNat (8 * k) t) ∧ (decodeHeaded k t).wellFormed = true := by
  interval_cases k <;> exact ⟨rfl, rfl⟩

/-- Settles O39: operations bit by bit, a W1 row by its pattern, a headed row by the number that its tail spells. -/
theorem decodeOfEncodeIsIdentity : Obligations.DecodeOfEncodeIsIdentity := by
  intro i st hw
  have single {v : Byte} (hi : i.span = [v]) : decodeWire [v] = .op i [] := by
    obtain ⟨hv, e⟩ := decodeW1_of_span hi hw
    rw [decodeWire_single [] hv, e]
  have tail {w : Nat} (k : Nat) (x : BitVec w) (h1 : 1 ≤ k) (h8 : k ≤ 8) (hwidth : w = 8 * k) :
      decodeWire (headed k x) = .op (decodeHeaded k x.toNat) [] := by
    simpa using decodeWire_headed x h1 h8 hwidth []
  cases i with
  | reset => rfl
  | decReset => rfl
  | decAccept b => rfl
  | decValue => rfl
  | encReset => rfl
  | encLoad v => simp [encode, decode, decodeEnc]
  | encFull => rfl
  | encEmit => rfl
  | encSize v => rfl
  | sgnTou x => rfl
  | sgnTos u => rfl
  | w1_0vvvvvvv v => exact single rfl
  | w1_10vvvvvv v => exact single rfl
  | w1_110vvvvv v => exact single rfl
  | w1_1110vvvv v => exact single rfl
  | w1_11110vvv v => exact single rfl
  | w2 t => exact (tail 1 t (by decide) (by decide) rfl).trans (by simp [decodeHeaded])
  | w3 t => exact (tail 2 t (by decide) (by decide) rfl).trans (by simp [decodeHeaded])
  | w4 t => exact (tail 3 t (by decide) (by decide) rfl).trans (by simp [decodeHeaded])
  | w5 t => exact (tail 4 t (by decide) (by decide) rfl).trans (by simp [decodeHeaded])
  | w6 t => exact (tail 5 t (by decide) (by decide) rfl).trans (by simp [decodeHeaded])
  | w7 t => exact (tail 6 t (by decide) (by decide) rfl).trans (by simp [decodeHeaded])
  | w8 t => exact (tail 7 t (by decide) (by decide) rfl).trans (by simp [decodeHeaded])
  | w9 t => exact (tail 8 t (by decide) (by decide) rfl).trans (by simp [decodeHeaded])

/-- Settles O40: a byte below 248 is a W1 row; a header takes as many tail bytes as it tells, and they spell its operand. -/
theorem everyFirstByteHasARow : Obligations.EveryFirstByteHasARow := by
  intro b bs st hlen
  by_cases hb : b < Config.base
  · obtain ⟨hspan, hw⟩ := decodeW1_span hb
    exact ⟨decodeW1 b, bs, decodeWire_single bs hb, hw, by rw [hspan]; rfl, by rw [hspan, wireLength, if_pos hb]; rfl⟩
  · rw [wireLength, if_neg hb] at hlen ⊢
    have htake : (bs.take (tailLen b)).length = tailLen b := List.length_take_of_le (by omega)
    obtain ⟨hspan, hw⟩ := decodeHeaded_span (bigEndian (bs.take (tailLen b))) (one_le_tailLen b) (tailLen_le b)
    have htail := tailBytes_ofNat (bs.take (tailLen b)) (Nat.le_of_eq (congrArg (8 * ·) htake))
    rw [htake] at htail
    rw [headed, header_of_tailLen hb, htail] at hspan
    refine ⟨_, bs.drop (tailLen b), ?_, hw, ?_, ?_⟩
    · simp only [decode, decodeWire, hb, if_false, if_neg (show ¬ bs.length < tailLen b by omega)]
    · rw [hspan, List.cons_append, List.take_append_drop]
    · rw [hspan, List.length_cons, htake, Nat.add_comm]

/-- Settles O41: the five words, read by evaluation. -/
theorem specWordsDecode : Obligations.SpecWordsDecode := ⟨rfl, rfl, rfl, rfl, rfl⟩

end Sys2Proof

/-! ## Lengths of encodings (R57), and the rows of one byte on DEC (R51) -/

namespace Sys2Proof.Machine

/-- The length selector as a threshold: `n` bytes are enough below `248 + 2^(8(n-1))` (R57, R70). -/
theorem encodedSize_le_iff (v : Word) {n : Nat} (h2 : 2 ≤ n) : encodedSize v ≤ n ↔ v.toNat ≤ 247 + 2 ^ (8 * (n - 1)) := by
  by_cases hv : v.toNat < 248
  · rw [encodedSize_of_lt hv]
    exact ⟨fun _ => Nat.le_add_right_of_le (by omega), fun _ => by omega⟩
  · obtain ⟨-, -, hfits, hmin⟩ := encodedSize_of_le (v := v) (by omega)
    refine ⟨fun hle => ?_, fun hle => ?_⟩
    · have := Nat.pow_le_pow_right (n := 2) (by decide) (show 8 * (encodedSize v - 1) ≤ 8 * (n - 1) by omega)
      have := Nat.pow_pos (n := 8 * (encodedSize v - 1)) (show 0 < 2 by decide)
      omega
    · by_contra hlt
      have := hmin n h2 (by omega)
      omega

theorem encodedSize_le_one_iff (v : Word) : encodedSize v ≤ 1 ↔ v.toNat ≤ 247 := by
  by_cases hv : v.toNat < 248
  · rw [encodedSize_of_lt hv]
    omega
  · have := (encodedSize_of_le (v := v) (by omega)).1
    omega

/-- Settles O45: the table's bounds are the thresholds of the length selector. -/
theorem encodedLengthRanges : Obligations.EncodedLengthRanges := by
  intro v
  have hbound := encodedSize_bounds v
  have h1 := encodedSize_le_one_iff v
  have h2 := encodedSize_le_iff v (n := 2) (by decide)
  have h3 := encodedSize_le_iff v (n := 3) (by decide)
  have h4 := encodedSize_le_iff v (n := 4) (by decide)
  have h5 := encodedSize_le_iff v (n := 5) (by decide)
  have h6 := encodedSize_le_iff v (n := 6) (by decide)
  have h7 := encodedSize_le_iff v (n := 7) (by decide)
  have h8 := encodedSize_le_iff v (n := 8) (by decide)
  rw [length_encodeBytes]
  split_ifs <;> omega

/-- The offer of a single byte below 248 to a DEC that has not started (R51, R85). -/
theorem offer_single {v : Byte} {s : State} (hs : s.dec.state = .notStarted) (hv : v.toNat < 248) : offer [v] s = { s with
    dec := { s.dec with state := .ready, value := BitVec.ofNat 64 v.toNat }
    decIn := s.decIn ++ [v]
    outcome := .ok (.done true) } := by
  have hbase : v < Config.base := (lt_base_iff v).mpr hv
  simp [offer, feedNext_eq, decAccept, hs, acceptFirst, hbase, State.setDec, State.takeIn, State.answer]

/-- Settles O11: every W1 row is the offer of its byte, which is below 248. -/
theorem singleByteRowsComplete : Obligations.SingleByteRowsComplete := by
  intro v s t hr hs ht
  have row {i : Instr} (hi : i.span = [v]) (hv : v.toNat < 248) : exec i s = .next t := by
    rw [exec_of_span s (by simp [hi]), State.operate_of_reset hr, hi, offer_single hs hv, ht]
  exact ⟨fun _ => row rfl (by omega), fun _ _ => row rfl (by omega), fun _ _ => row rfl (by omega),
    fun _ _ => row rfl (by omega), fun _ _ => row rfl (by omega)⟩

end Sys2Proof.Machine

/-! ## A clock edge in its parts: the read, the operation of DEC, the operation of ENC (R66, R67) -/

namespace Sys2Proof.Machine

variable {p : PortIn} {s t u v : State}

theorem State.SameDecSide.trans (h : s.SameDecSide t) (h' : t.SameDecSide u) : s.SameDecSide u :=
  ⟨h'.dec.trans h.dec, h'.decErr.trans h.decErr, h'.decIn.trans h.decIn⟩

theorem State.SameEncSide.trans (h : s.SameEncSide t) (h' : t.SameEncSide u) : s.SameEncSide u :=
  ⟨h'.enc.trans h.enc, h'.encErr.trans h.encErr, h'.encOut.trans h.encOut⟩

theorem runOps_singleton (i : Instr) (s : State) : runOps [i] s = exec i s := by
  rw [runOps]
  cases exec i s <;> rfl

/-- The read of an edge, DEC.VALUE or nothing, leaves both sides. -/
theorem runOps_read (h : runOps (if p.decRd && (s.resetDone || !p.rst) then [Instr.decValue] else []) s = .next u) :
    s.SameDecSide u ∧ s.SameEncSide u := by
  split at h
  · rw [runOps_singleton] at h
    exact ⟨exec_sameDecSide h (.inr rfl), exec_sameEncSide h rfl⟩
  · cases h
    exact ⟨⟨rfl, rfl, rfl⟩, ⟨rfl, rfl, rfl⟩⟩

/-- An edge without `rst` holds at most one operation of DEC, and it does not drive ENC. -/
theorem edgeDec_cases (p : PortIn) (s : State) : edgeDec p s = [] ∨ ∃ i, edgeDec p s = [i] ∧ drivesEnc i = false := by
  unfold edgeDec
  split_ifs
  · exact .inr ⟨.decReset, rfl, rfl⟩
  · exact .inr ⟨.decAccept p.decInByte, rfl, rfl⟩
  · exact .inl rfl

/-- ENC in IDLE takes ENC.LOAD at an edge. -/
theorem edgeEnc_of_idle (hc : p.encClr = false) (hs : s.enc.state = .idle) :
    edgeEnc p s = if p.encLoad then [.encLoad p.encValue] else [] := by
  simp [edgeEnc, hc, hs]

/-- ENC in EMIT takes ENC.FULL at an edge, and ENC.EMIT behind it. -/
theorem edgeEnc_of_emit (hc : p.encClr = false) (hs : s.enc.state = .emit) :
    edgeEnc p s = if p.encOutFull then [.encFull] else if p.encOutReady then [.encEmit] else [] := by
  simp [edgeEnc, hc, hs]

/-- ENC in FAULT takes nothing at an edge but its reset. -/
theorem edgeEnc_of_fault (hc : p.encClr = false) (hs : s.enc.state = .fault) : edgeEnc p s = [] := by
  simp [edgeEnc, hc, hs]

theorem edgeEnc_of_encClr (hc : p.encClr = true) : edgeEnc p s = [.encReset] := if_pos hc

/-- An edge without `rst` holds at most one operation of ENC, and it does not drive DEC. -/
theorem edgeEnc_cases (p : PortIn) (s : State) : edgeEnc p s = [] ∨ ∃ i, edgeEnc p s = [i] ∧ drivesDec i = false := by
  cases hc : p.encClr
  · cases hs : s.enc.state
    · rw [edgeEnc_of_idle hc hs]
      split_ifs
      · exact .inr ⟨.encLoad p.encValue, rfl, rfl⟩
      · exact .inl rfl
    · rw [edgeEnc_of_emit hc hs]
      split_ifs
      · exact .inr ⟨.encFull, rfl, rfl⟩
      · exact .inr ⟨.encEmit, rfl, rfl⟩
      · exact .inl rfl
    · exact .inl (edgeEnc_of_fault hc hs)
  · exact .inr ⟨.encReset, edgeEnc_of_encClr hc, rfl⟩

/-- The DEC part of an edge: nothing, or one operation that leaves the ENC side. -/
theorem runOps_edgeDec (h : runOps (edgeDec p s) u = .next v) :
    v = u ∨ ∃ i, exec i u = .next v ∧ drivesEnc i = false := by
  obtain e | ⟨i, e, hi⟩ := edgeDec_cases p s <;> rw [e] at h
  · cases h
    exact .inl rfl
  · exact .inr ⟨i, runOps_singleton i u ▸ h, hi⟩

/-- The ENC part of an edge: nothing, or one operation that leaves the DEC side. -/
theorem runOps_edgeEnc (h : runOps (edgeEnc p s) v = .next t) :
    t = v ∨ ∃ i, exec i v = .next t ∧ drivesDec i = false := by
  obtain e | ⟨i, e, hi⟩ := edgeEnc_cases p s <;> rw [e] at h
  · cases h
    exact .inl rfl
  · exact .inr ⟨i, runOps_singleton i v ▸ h, hi⟩

theorem runOps_edgeDec_sameEncSide (h : runOps (edgeDec p s) u = .next v) : u.SameEncSide v := by
  obtain rfl | ⟨i, hi, hd⟩ := runOps_edgeDec h
  · exact ⟨rfl, rfl, rfl⟩
  · exact exec_sameEncSide hi hd

theorem runOps_edgeEnc_sameDecSide (h : runOps (edgeEnc p s) v = .next t) : v.SameDecSide t := by
  obtain rfl | ⟨i, hi, hd⟩ := runOps_edgeEnc h
  · exact ⟨rfl, rfl, rfl⟩
  · exact exec_sameDecSide hi (.inl hd)

/-- An edge with `rst`: the read leaves both sides, and RESET clears them (R66). -/
theorem clockEdge_rst (hp : p.rst = true) (h : clockEdge p s = .next t) :
    ∃ u, s.SameDecSide u ∧ s.SameEncSide u ∧ t = blockReset u := by
  rw [clockEdge, edgeOps, if_pos hp] at h
  obtain ⟨u, hu, ht⟩ := runOps_append.mp h
  obtain ⟨hdec, henc⟩ := runOps_read hu
  exact ⟨u, hdec, henc, by cases ht; rfl⟩

/-- An edge without `rst`: the read leaves both sides, then come the operation of DEC and the operation of ENC, which are chosen
by the state from before the edge (R66, R67). -/
theorem clockEdge_parts (hp : p.rst = false) (h : clockEdge p s = .next t) :
    ∃ u v, s.SameDecSide u ∧ s.SameEncSide u ∧ runOps (edgeDec p s) u = .next v ∧ runOps (edgeEnc p s) v = .next t := by
  rw [clockEdge, edgeOps, if_neg (by simp [hp])] at h
  obtain ⟨v, hv, ht⟩ := runOps_append.mp h
  obtain ⟨u, hu, hv⟩ := runOps_append.mp hv
  obtain ⟨hdec, henc⟩ := runOps_read hu
  exact ⟨u, v, hdec, henc, hv, ht⟩

end Sys2Proof.Machine

/-! ## The error pulses of a step (R65) -/

namespace Sys2Proof.Machine

variable {p : PortIn} {i : Instr} {s s' t t' u v : State}

/-- dec_err of `t` marks the entry into FAILED between `s` and `t`. -/
def State.DecPulse (s t : State) : Prop := t.decErr = true ↔ s.dec.state ≠ .failed ∧ t.dec.state = .failed

/-- enc_err of `t` marks the entry into FAULT between `s` and `t`. -/
def State.EncPulse (s t : State) : Prop := t.encErr = true ↔ s.enc.state ≠ .fault ∧ t.enc.state = .fault

theorem State.decPulse_refl (h : s.decErr = false) : s.DecPulse s := by
  simp [State.DecPulse, h]

theorem State.encPulse_refl (h : s.encErr = false) : s.EncPulse s := by
  simp [State.EncPulse, h]

/-- The pulse looks at the DEC side alone, before and after. -/
theorem State.DecPulse.congr (h : s.DecPulse t) (hs : s'.SameDecSide s) (ht : t.SameDecSide t') : s'.DecPulse t' := by
  rw [State.DecPulse, ht.dec, ht.decErr, ← hs.dec]
  exact h

/-- The pulse looks at the ENC side alone, before and after. -/
theorem State.EncPulse.congr (h : s.EncPulse t) (hs : s'.SameEncSide s) (ht : t.SameEncSide t') : s'.EncPulse t' := by
  rw [State.EncPulse, ht.enc, ht.encErr, ← hs.enc]
  exact h

/-- DEC.ACCEPT enters FAILED exactly where it pulses dec_err. -/
theorem decAccept_decPulse (b : Byte) (h : s.decErr = false) : s.DecPulse (decAccept b s) := by
  obtain ⟨-, -, e⟩ | ⟨-, -, e⟩ | ⟨hs, -, e⟩ | ⟨-, -, -, e⟩ | ⟨hs, -, -, e⟩ | ⟨-, e⟩ := decAccept_cases b s <;>
    simp [State.DecPulse, *]

/-- ENC.FULL enters FAULT exactly where it pulses enc_err. -/
theorem encFull_encPulse (h : s.encErr = false) : s.EncPulse (encFull s) := by
  obtain ⟨hs, e⟩ | ⟨-, e⟩ := encFull_cases s <;> simp [State.EncPulse, *]

/-- From a state without a pulse, every operation pulses dec_err exactly when it enters FAILED. -/
theorem exec_decPulse (h : exec i s = .next t) (hs : s.decErr = false) : s.DecPulse t := by
  obtain hside | ⟨-, rfl⟩ | ⟨-, rfl⟩ | ⟨-, -, b, hside, -⟩ := exec_decSide_cases h
  · exact (State.decPulse_refl hs).congr ⟨rfl, rfl, rfl⟩ hside
  · simp [State.DecPulse, blockReset_eq]
  · simp [State.DecPulse, decReset]
  · exact (decAccept_decPulse b hs).congr ⟨rfl, rfl, rfl⟩ hside

/-- From a state without a pulse, every operation pulses enc_err exactly when it enters FAULT. -/
theorem exec_encPulse (h : exec i s = .next t) (hs : s.encErr = false) : s.EncPulse t := by
  obtain hside | ⟨-, rfl⟩ | ⟨-, rfl⟩ | ⟨v, -, rfl⟩ | ⟨-, rfl⟩ | ⟨-, rfl⟩ := exec_encSide_cases h
  · exact (State.encPulse_refl hs).congr ⟨rfl, rfl, rfl⟩ hside
  · simp [State.EncPulse, blockReset_eq]
  · simp [State.EncPulse, encReset]
  · obtain ⟨-, e⟩ | ⟨-, e⟩ := encLoad_cases v s <;> simp [State.EncPulse, e, hs]
  · obtain ⟨-, e⟩ | ⟨-, e⟩ := encEmit_cases s
    · by_cases h0 : s.enc.left - 1#4 = 0#4 <;> simp [State.EncPulse, e, hs, h0]
    · simp [State.EncPulse, e, hs]
  · exact encFull_encPulse hs

theorem runOps_edgeDec_decPulse (h : runOps (edgeDec p s) u = .next v) (hu : u.decErr = false) : u.DecPulse v := by
  obtain rfl | ⟨i, hi, -⟩ := runOps_edgeDec h
  · exact State.decPulse_refl hu
  · exact exec_decPulse hi hu

theorem runOps_edgeEnc_encPulse (h : runOps (edgeEnc p s) v = .next t) (hv : v.encErr = false) : v.EncPulse t := by
  obtain rfl | ⟨i, hi, -⟩ := runOps_edgeEnc h
  · exact State.encPulse_refl hv
  · exact exec_encPulse hi hv

/-- A clock edge holds at most one operation of each unit that can enter a terminal state, so its pulses mark it. -/
theorem clockEdge_pulses (h : clockEdge p s = .next t) (hd : s.decErr = false) (he : s.encErr = false) :
    s.DecPulse t ∧ s.EncPulse t := by
  cases hp : p.rst
  · obtain ⟨u, v, hdec, henc, hv, ht⟩ := clockEdge_parts hp h
    have hencv := henc.trans (runOps_edgeDec_sameEncSide hv)
    exact ⟨(runOps_edgeDec_decPulse hv (hdec.decErr.trans hd)).congr hdec (runOps_edgeEnc_sameDecSide ht),
      (runOps_edgeEnc_encPulse ht (hencv.encErr.trans he)).congr hencv ⟨rfl, rfl, rfl⟩⟩
  · obtain ⟨u, -, -, rfl⟩ := clockEdge_rst hp h
    simp [State.DecPulse, State.EncPulse, blockReset_eq]

/-- A step of a feed is at most one DEC.ACCEPT. -/
theorem feedStep_pulses (span : List Byte) (hd : s.decErr = false) (he : s.encErr = false) :
    s.DecPulse (feedStep span s) ∧ s.EncPulse (feedStep span s) := by
  obtain ⟨-, e⟩ | ⟨-, e⟩ := feedStep_cases span s <;> rw [e]
  · obtain ⟨henc, herr, hout, -⟩ := offer_frame span s
    refine ⟨?_, (State.encPulse_refl he).congr ⟨rfl, rfl, rfl⟩ ⟨henc, herr, hout⟩⟩
    obtain ⟨-, e⟩ | ⟨b, rest, -, e⟩ := offer_cases span s <;> rw [e]
    · exact State.decPulse_refl hd
    · exact (decAccept_decPulse b hd).congr ⟨rfl, rfl, rfl⟩ ⟨rfl, rfl, rfl⟩
  · exact ⟨State.decPulse_refl hd, State.encPulse_refl he⟩

/-- A step ends the pulses of the step before, and then its own action sets them. -/
theorem step_pulses (h : step s = .next t) : s.DecPulse t ∧ s.EncPulse t := by
  obtain ⟨-, rfl⟩ | ⟨r, later, i, rest, -, -, ht⟩ | ⟨r, later, why, -, -, rfl⟩ | ⟨span, later, -, -, rfl⟩ |
    ⟨p, later, -, ht⟩ := step_cases h
  · exact ⟨State.decPulse_refl (s := s.newCycle) rfl, State.encPulse_refl (s := s.newCycle) rfl⟩
  · exact ⟨exec_decPulse (s := s.newCycle.later rest later) ht rfl, exec_encPulse (s := s.newCycle.later rest later) ht rfl⟩
  · exact ⟨State.decPulse_refl (s := s.newCycle) rfl, State.encPulse_refl (s := s.newCycle) rfl⟩
  · exact feedStep_pulses span (s := s.newCycle.later [] later) rfl rfl
  · exact clockEdge_pulses (s := s.newCycle.later [] later) ht rfl rfl

/-- Settles O43: the pulses of a step, and outputs that are the pulses. -/
theorem errorPulsesMarkTheirStep : Obligations.ErrorPulsesMarkTheirStep :=
  ⟨fun _ _ h => step_pulses h, fun _ _ => ⟨rfl, rfl⟩⟩

end Sys2Proof.Machine

/-! ## What each unit does at a clock edge (R66, R67) -/

namespace Sys2Proof.Machine

variable {p : PortIn} {i : Instr} {s t u v : State}

theorem edgeDec_of_decClr (hc : p.decClr = true) : edgeDec p s = [.decReset] := if_pos hc

theorem edgeDec_of_accept (hc : p.decClr = false) (hv : p.decInValid = true) (hin : s.dec.inReady = true) :
    edgeDec p s = [.decAccept p.decInByte] := by
  simp [edgeDec, hc, hv, hin]

theorem edgeDec_of_none (hc : p.decClr = false) (h : p.decInValid = false ∨ s.dec.inReady = false) : edgeDec p s = [] := by
  obtain h | h := h <;> simp [edgeDec, hc, h]

theorem edgeEnc_of_none (hc : p.encClr = false) (hidle : s.enc.state = .idle → p.encLoad = false)
    (hemit : s.enc.state = .emit → p.encOutFull = false ∧ p.encOutReady = false) : edgeEnc p s = [] := by
  cases hs : s.enc.state
  · simp [edgeEnc_of_idle hc hs, hidle hs]
  · simp [edgeEnc_of_emit hc hs, hemit hs]
  · exact edgeEnc_of_fault hc hs

/-! ### The read -/

/-- With `dec_rd` an edge starts with DEC.VALUE, and its other operations are those of the edge without it. -/
theorem edgeOps_of_decRd (hr : s.resetDone = true) (hd : p.decRd = true) :
    edgeOps p s = .decValue :: edgeOps { p with decRd := false } s := by
  cases hp : p.rst <;> simp [edgeOps, edgeDec, edgeEnc, hr, hd, hp]

/-- DEC.VALUE leaves what the other operations of the edge are chosen by. -/
theorem edgeOps_decValue (p : PortIn) (s : State) : edgeOps p (decValue s) = edgeOps p s := by
  rw [decValue_eq]
  rfl

theorem runOps_cons_of_next (is : List Instr) (h : exec i s = .next u) : runOps (i :: is) s = runOps is u := by
  rw [runOps, h]

theorem clockEdge_of_decRd (hr : s.resetDone = true) (hd : p.decRd = true) :
    clockEdge p s = clockEdge { p with decRd := false } (decValue s) := by
  have hread : exec .decValue s = .next (decValue s) := State.operate_of_reset hr
  rw [clockEdge, edgeOps_of_decRd hr hd, runOps_cons_of_next _ hread, clockEdge, edgeOps_decValue]

/-- An edge without a state-changing operation is the read alone. -/
theorem clockEdge_of_none (hr : s.resetDone = true) (hp : p.rst = false) (hdec : edgeDec p s = []) (henc : edgeEnc p s = []) :
    clockEdge p s = if p.decRd = true then exec .decValue s else .next s := by
  cases hd : p.decRd
  · simp [clockEdge, edgeOps, hp, hdec, henc, hd, runOps]
  · simp [clockEdge, edgeOps, hp, hdec, henc, hd, hr, runOps_singleton]

/-! ### DEC -/

/-- DEC at an edge with `dec_clr`. -/
theorem clockEdge_decClr (hp : p.rst = false) (h : clockEdge p s = .next t) (hc : p.decClr = true) : t.dec = State.reset.dec := by
  obtain ⟨u, v, -, -, hv, ht⟩ := clockEdge_parts hp h
  rw [edgeDec_of_decClr hc, runOps_singleton] at hv
  obtain ⟨-, rfl⟩ := State.operate_eq_next.mp hv
  exact (runOps_edgeEnc_sameDecSide ht).dec

/-- DEC at an edge at which it takes the offered byte. -/
theorem clockEdge_decAccept (hp : p.rst = false) (h : clockEdge p s = .next t) (hc : p.decClr = false) (hvalid : p.decInValid = true)
    (hin : s.dec.inReady = true) :
    t.dec = (decAccept p.decInByte s).dec ∧ t.decIn = (decAccept p.decInByte s).decIn := by
  obtain ⟨u, v, hside, -, hv, ht⟩ := clockEdge_parts hp h
  rw [edgeDec_of_accept hc hvalid hin, runOps_singleton] at hv
  obtain ⟨-, rfl⟩ := State.operate_eq_next.mp hv
  have hlast := runOps_edgeEnc_sameDecSide ht
  refine ⟨hlast.dec.trans (decAccept_of_dec_eq _ hside.dec).1, ?_⟩
  rw [hlast.decIn, decAccept_decIn hin, decAccept_decIn (by rw [hside.dec, hin]), hside.decIn]

/-- DEC at an edge without an operation of it. -/
theorem clockEdge_dec_of_none (hp : p.rst = false) (h : clockEdge p s = .next t) (hnone : edgeDec p s = []) : s.SameDecSide t := by
  obtain ⟨u, v, hside, -, hv, ht⟩ := clockEdge_parts hp h
  rw [hnone] at hv
  cases hv
  exact hside.trans (runOps_edgeEnc_sameDecSide ht)

/-! ### ENC -/

/-- The operation of ENC at an edge runs on a state with the ENC side from before the edge. -/
theorem clockEdge_enc_op (hp : p.rst = false) (h : clockEdge p s = .next t) (hi : edgeEnc p s = [i]) :
    ∃ v, s.SameEncSide v ∧ exec i v = .next t := by
  obtain ⟨u, v, -, hside, hv, ht⟩ := clockEdge_parts hp h
  rw [hi, runOps_singleton] at ht
  exact ⟨v, hside.trans (runOps_edgeDec_sameEncSide hv), ht⟩

/-- ENC at an edge without an operation of it. -/
theorem clockEdge_enc_of_none (hp : p.rst = false) (h : clockEdge p s = .next t) (hnone : edgeEnc p s = []) : s.SameEncSide t := by
  obtain ⟨u, v, -, hside, hv, ht⟩ := clockEdge_parts hp h
  rw [hnone] at ht
  cases ht
  exact hside.trans (runOps_edgeDec_sameEncSide hv)

/-- ENC at an edge with `enc_clr`. -/
theorem clockEdge_encClr (hp : p.rst = false) (h : clockEdge p s = .next t) (hc : p.encClr = true) :
    t.enc = State.reset.enc ∧ t.encOut = s.encOut := by
  obtain ⟨v, hside, ht⟩ := clockEdge_enc_op hp h (edgeEnc_of_encClr hc)
  obtain ⟨-, rfl⟩ := State.operate_eq_next.mp ht
  exact ⟨rfl, hside.encOut⟩

/-- ENC at an edge at which it takes the value. -/
theorem clockEdge_encLoad (hp : p.rst = false) (h : clockEdge p s = .next t) (hi : edgeEnc p s = [.encLoad p.encValue]) :
    t.enc = (encLoad p.encValue s).enc ∧ t.encOut = s.encOut := by
  obtain ⟨v, hside, ht⟩ := clockEdge_enc_op hp h hi
  obtain ⟨-, rfl⟩ := State.operate_eq_next.mp ht
  exact ⟨(encLoad_of_enc_eq _ hside.enc).1, by simp [encLoad_frame, hside.encOut]⟩

/-- ENC at an edge at which the sink refuses the offered byte. -/
theorem clockEdge_encFull (hp : p.rst = false) (h : clockEdge p s = .next t) (hi : edgeEnc p s = [.encFull])
    (hs : s.enc.state = .emit) : t.enc = { s.enc with state := .fault } ∧ t.encOut = s.encOut := by
  obtain ⟨v, hside, ht⟩ := clockEdge_enc_op hp h hi
  obtain ⟨-, rfl⟩ := State.operate_eq_next.mp ht
  simp [encFull, hside.enc, hs, hside.encOut]

/-- ENC at an edge at which the offered byte is taken. -/
theorem clockEdge_encEmit (hp : p.rst = false) (h : clockEdge p s = .next t) (hi : edgeEnc p s = [.encEmit])
    (hs : s.enc.state = .emit) : t.enc = (encEmit s).enc ∧ t.encOut = (encEmit s).encOut := by
  obtain ⟨v, hside, ht⟩ := clockEdge_enc_op hp h hi
  obtain ⟨-, rfl⟩ := State.operate_eq_next.mp ht
  exact ⟨(encEmit_of_enc_eq hside.enc).1, by simp [encEmit, hside.enc, hs, hside.encOut]⟩

/-- Settles O42: the read first, then each unit by the operation that the edge holds for it. -/
theorem edgePriorities : Obligations.EdgePriorities := by
  intro p s hr
  obtain ⟨t, ht⟩ : ∃ t, clockEdge p s = .next t := runOps_answers (edgeOps p s) hr
  refine ⟨fun hd => ⟨decValue s, State.operate_of_reset hr, clockEdge_of_decRd hr hd⟩,
    fun hp hdc hdv hec hidle hemit => clockEdge_of_none hr hp (edgeDec_of_none hdc hdv) (edgeEnc_of_none hec hidle hemit),
    t, ht, fun hp => ?_, fun hp => ⟨clockEdge_decClr hp ht, fun hc hv hin => ?_, fun hc hv => ?_, clockEdge_encClr hp ht,
      fun hc hs hl => ?_, fun hc hs hl => ?_, fun hc hs hf => ?_, fun hc hs hf hready => ?_,
      fun hc hs hf hready => ?_, fun hc hs => ?_⟩⟩
  · obtain ⟨u, -, -, rfl⟩ := clockEdge_rst hp ht
    exact ⟨rfl, rfl⟩
  · exact ⟨_, exec_decAccept p.decInByte hr, clockEdge_decAccept hp ht hc hv hin⟩
  · have hside := clockEdge_dec_of_none hp ht (edgeDec_of_none hc hv)
    exact ⟨hside.dec, hside.decIn⟩
  · exact ⟨_, State.operate_of_reset hr, clockEdge_encLoad hp ht (by simp [edgeEnc_of_idle hc hs, hl])⟩
  · have hside := clockEdge_enc_of_none hp ht (by simp [edgeEnc_of_idle hc hs, hl])
    exact ⟨hside.enc, hside.encOut⟩
  · exact clockEdge_encFull hp ht (by simp [edgeEnc_of_emit hc hs, hf]) hs
  · exact ⟨_, State.operate_of_reset hr, clockEdge_encEmit hp ht (by simp [edgeEnc_of_emit hc hs, hf, hready]) hs⟩
  · have hside := clockEdge_enc_of_none hp ht (by simp [edgeEnc_of_emit hc hs, hf, hready])
    exact ⟨hside.enc, hside.encOut⟩
  · have hside := clockEdge_enc_of_none hp ht (edgeEnc_of_fault hc hs)
    exact ⟨hside.enc, hside.encOut⟩

end Sys2Proof.Machine

/-! ## A feed from a DEC that has not started against `Decode` (R93), and the sequences that overflow (R58) -/

namespace Sys2Proof.Machine

theorem decAccept_single {b : Byte} {s : State} (hs : s.dec.state = .notStarted) (hb : b < Config.base) :
    (decAccept b s).dec.state = .ready ∧ (decAccept b s).dec.value = b.setWidth 64 := by
  simp [decAccept, hs, acceptFirst, hb]

/-- A header starts a tail of the length it tells, with nothing accumulated. -/
theorem decAccept_header {b : Byte} {s : State} (hs : s.dec.state = .notStarted) (hb : ¬ b < Config.base) :
    (decAccept b s).dec.state = .awaitingTail ∧ (decAccept b s).dec.remaining.toNat = tailLen b ∧
      (decAccept b s).dec.acc.toNat = 0 := by
  simp [decAccept, hs, acceptFirst, hb, -BitVec.toNat_ofNat, tailLen_toNat]

/-- Bytes behind those that end a feed stay with the host. -/
theorem feed_append_of_stopped {as : List Byte} (bs : List Byte) {s : State} (h : (feed as s).1.dec.inReady = false) :
    feed (as ++ bs) s = feed as s := by
  rw [feed_append, feed_of_not_inReady h]
  rfl

/-- What a feed from a DEC that has not started comes to, for each result of `Decode` on its bytes: the state of DEC and the
number of bytes consumed (R93, R96). -/
theorem feed_of_notStarted (span : List Byte) {s : State} (hs : s.dec.state = .notStarted) :
    (∃ v, decodeBytes span = .ok (v, (feed span s).2) ∧ (feed span s).1.dec.state = .ready ∧ (feed span s).1.dec.value = v) ∨
    (decodeBytes span = .err .tooFewBytes ∧ (feed span s).2 = span.length ∧
      ((feed span s).1.dec.state = .notStarted ∨ (feed span s).1.dec.state = .awaitingTail)) ∨
    (decodeBytes span = .err .valueTooLarge ∧ (feed span s).2 = 9 ∧ (feed span s).1.dec.state = .failed) := by
  cases span with
  | nil => exact .inr (.inl ⟨rfl, rfl, .inl hs⟩)
  | cons b bs =>
    rw [feed_cons_of_inReady ((Dec.inReady_iff _).mpr (.inl hs))]
    by_cases hb : b < Config.base
    · obtain ⟨hready, hvalue⟩ := decAccept_single hs hb
      rw [feed_of_not_inReady ((Dec.inReady_eq_false_iff _).mpr (.inl hready))]
      exact .inl ⟨_, by simp [decodeBytes, hb], hready, hvalue⟩
    obtain ⟨hwait, hrem, hacc⟩ := decAccept_header hs hb
    have h1 := one_le_tailLen b
    have h8 := tailLen_le b
    generalize decAccept b s = c at *
    have hroom : c.dec.acc.toNat < 256 ^ (8 - c.dec.remaining.toNat) := hacc ▸ Nat.pow_pos (by decide)
    by_cases hlen : bs.length < tailLen b
    · obtain ⟨hcount, -, hdec⟩ := feed_part_of_tail bs c hwait (by omega) (by omega) hroom
      exact .inr (.inl ⟨by simp [decodeBytes, hb, hlen], by rw [hcount]; rfl, .inr (by rw [hdec])⟩)
    have htake : (bs.take (tailLen b)).length = tailLen b := List.length_take_of_le (by omega)
    obtain ⟨hcount, -, hbig, hsmall⟩ := feed_whole_tail (bs.take (tailLen b)) c hwait (by omega) (by omega) (by omega) hroom
    have hstop (hin : (feed (bs.take (tailLen b)) c).1.dec.inReady = false) : feed bs c = feed (bs.take (tailLen b)) c := by
      simpa using feed_append_of_stopped (bs.drop (tailLen b)) hin
    simp only [hacc, Nat.zero_mul, Nat.zero_add] at hbig hsmall
    have hmax : Config.maxTail.toNat = 2 ^ 64 - 1 - 248 := rfl
    by_cases hover : Config.maxTail.toNat < bigEndian (bs.take (tailLen b))
    · obtain ⟨-, -, hdec⟩ := hbig (by omega)
      rw [hstop (by rw [hdec]; rfl), hcount, hdec]
      have := eight_le_length_of_maxTail_lt hover
      exact .inr (.inr ⟨by simp [decodeBytes, hb, hlen, hover], by simp; omega, rfl⟩)
    · obtain ⟨-, -, hdec⟩ := hsmall (by omega)
      rw [hstop (by rw [hdec]; rfl), hcount, hdec, htake]
      exact .inl ⟨_, by simp [decodeBytes, hb, hlen, hover, Nat.add_comm], rfl, rfl⟩

/-- DECODE answers what `Decode` answers, and is in FAILED when it answers ValueTooLarge (R93). -/
theorem decodeExpansion_spec (span : List Byte) (s : State) :
    (decodeExpansion span s).2 = decodeBytes span ∧
      (decodeBytes span = .err .valueTooLarge → (decodeExpansion span s).1.dec.state = .failed) := by
  obtain ⟨v, e, hstate, hv⟩ | ⟨e, -, hstate | hstate⟩ | ⟨e, -, hstate⟩ := feed_of_notStarted span (s := decReset s) rfl <;>
    simp [decodeExpansion, Dec.status, *]

/-- Eight tail bytes spell a number above MAX exactly when they are seven bytes 0xFF and a byte of 8 or more (R58). -/
theorem maxTail_lt_bigEndian_iff {tail : List Byte} (hlen : tail.length = 8) :
    Config.maxTail.toNat < bigEndian tail ↔ ∃ last : Byte, 8 ≤ last.toNat ∧ tail = List.replicate 7 0xFF ++ [last] := by
  have hmax : Config.maxTail.toNat = 2 ^ 64 - 1 - 248 := rfl
  have hones : bigEndian (List.replicate 7 0xFF) = 256 ^ 7 - 1 := rfl
  refine ⟨fun h => ?_, ?_⟩
  · obtain rfl | ⟨init, last, rfl⟩ := List.eq_nil_or_concat tail
    · simp at hlen
    rw [List.concat_eq_append] at *
    have hinit : init.length = 7 := by simpa using hlen
    have hlt := bigEndian_lt init
    have := last.isLt
    rw [bigEndian_append_singleton] at h
    rw [hinit] at hlt
    have hall : init = List.replicate 7 0xFF := bigEndian_injective hinit (by omega)
    exact ⟨last, by omega, by rw [hall]⟩
  · rintro ⟨last, h8, rfl⟩
    rw [bigEndian_append_singleton]
    omega

theorem decodeBytes_cons_tooLarge_iff (b : Byte) (bs : List Byte) : decodeBytes (b :: bs) = .err .valueTooLarge ↔
    ¬ b < Config.base ∧ tailLen b ≤ bs.length ∧ Config.maxTail.toNat < bigEndian (bs.take (tailLen b)) := by
  rw [decodeBytes, ← Nat.not_lt (a := bs.length)]
  split_ifs <;> simp [*]

/-- The sequences that `Decode` rejects as too large (R58). -/
theorem decodeBytes_tooLarge_iff (span : List Byte) : decodeBytes span = .err .valueTooLarge ↔
    ∃ (last : Byte) (rest : List Byte), 8 ≤ last.toNat ∧ span = List.replicate 8 0xFF ++ last :: rest := by
  refine ⟨fun h => ?_, ?_⟩
  · cases span with
    | nil => cases h
    | cons b bs =>
      obtain ⟨hb, hlen, hover⟩ := (decodeBytes_cons_tooLarge_iff b bs).mp h
      have htake : (bs.take (tailLen b)).length = tailLen b := List.length_take_of_le hlen
      have h8 : tailLen b = 8 := le_antisymm (tailLen_le b) (htake ▸ eight_le_length_of_maxTail_lt hover)
      have hheader := header_of_tailLen hb
      rw [h8] at htake hover hheader
      obtain ⟨last, hlast, htail⟩ := (maxTail_lt_bigEndian_iff htake).mp hover
      refine ⟨last, bs.drop 8, hlast, ?_⟩
      rw [← hheader, ← List.take_append_drop 8 bs, htail]
      simp [Config.base, List.replicate]
  · rintro ⟨last, rest, hlast, rfl⟩
    exact (decodeBytes_cons_tooLarge_iff 0xFF (List.replicate 7 0xFF ++ last :: rest)).mpr
      ⟨by decide, by simp [tailLen], (maxTail_lt_bigEndian_iff rfl).mpr ⟨last, hlast, rfl⟩⟩

/-- Settles O14: DECODE answers as `Decode` does, and `Decode` overflows on exactly these sequences. -/
theorem overflowSequencesAreRejected : Obligations.OverflowSequencesAreRejected := by
  intro span s hr
  obtain ⟨hresult, hfailed⟩ := decodeExpansion_spec span s
  exact ⟨(decodeExpansion span s).1, (decodeExpansion span s).2, State.perform_of_reset hr,
    hresult ▸ decodeBytes_tooLarge_iff span, fun h => hfailed (hresult ▸ h)⟩

end Sys2Proof.Machine

/-! ## ENC's operations one at a time: an equation for each control state (R71 to R75), and the byte that comes next (R72) -/

namespace Sys2Proof.Machine

variable {s : State}

theorem encLoad_of_idle (v : Word) (h : s.enc.state = .idle) : encLoad v s = { s with
    enc := { state := .emit, size := BitVec.ofNat 4 (encodedSize v), left := BitVec.ofNat 4 (encodedSize v), body := encodedBody v }
    outcome := .ok .none } := by
  obtain ⟨-, e⟩ | ⟨hs, -⟩ := encLoad_cases v s
  · exact e
  · simp [h] at hs

theorem encLoad_of_ne_idle (v : Word) (h : s.enc.state ≠ .idle) : encLoad v s = { s with outcome := .notAccepted } := by
  obtain ⟨hidle, -⟩ | ⟨-, e⟩ := encLoad_cases v s
  · exact absurd hidle h
  · exact e

/-- ENC.EMIT in EMIT, with its test for the last byte on the count from before it. -/
theorem encEmit_of_emit (h : s.enc.state = .emit) : encEmit s = { s with
    enc := { s.enc with left := s.enc.left - 1, state := if s.enc.left = 1 then .idle else .emit }
    encOut := s.encOut ++ [s.enc.nextByte]
    outcome := .ok (.byte s.enc.nextByte s.enc.atLast) } := by
  have hlast : s.enc.left - 1 = 0 ↔ s.enc.left = 1 := sub_eq_zero
  have hbit : (s.enc.left - 1 == 0) = s.enc.atLast := by
    rw [Bool.eq_iff_iff, beq_iff_eq, hlast, Enc.atLast, beq_iff_eq]
  obtain ⟨-, e⟩ | ⟨hs, -⟩ := encEmit_cases s
  · simp only [e, hlast, hbit]
  · simp [h] at hs

theorem encEmit_of_ne_emit (h : s.enc.state ≠ .emit) : encEmit s = { s with outcome := .notAccepted } := by
  obtain ⟨hemit, -⟩ | ⟨-, e⟩ := encEmit_cases s
  · exact absurd hemit h
  · exact e

theorem encFull_of_emit (h : s.enc.state = .emit) : encFull s = { s with
    enc := { s.enc with state := .fault }, encErr := true, outcome := .err .tooFewBytes } := by
  obtain ⟨-, e⟩ | ⟨hs, -⟩ := encFull_cases s
  · exact e
  · simp [h] at hs

theorem encFull_of_ne_emit (h : s.enc.state ≠ .emit) : encFull s = { s with outcome := .notAccepted } := by
  obtain ⟨hemit, -⟩ | ⟨-, e⟩ := encFull_cases s
  · exact absurd hemit h
  · exact e

/-- In FAULT the operations of ENC on a value in progress are NotAccepted (R73, R75). -/
theorem exec_enc_of_fault {i : Instr} {t : State} (hs : s.enc.state = .fault)
    (hi : (∃ v, i = .encLoad v) ∨ i = .encEmit ∨ i = .encFull) (h : exec i s = .next t) : t = { s with outcome := .notAccepted } := by
  obtain ⟨v, rfl⟩ | rfl | rfl := hi
  · exact (State.operate_eq_next.mp h).2.trans (encLoad_of_ne_idle v (by simp [hs]))
  · exact (State.operate_eq_next.mp h).2.trans (encEmit_of_ne_emit (by simp [hs]))
  · exact (State.operate_eq_next.mp h).2.trans (encFull_of_ne_emit (by simp [hs]))

/-! ### The next byte as a number (R72) -/

theorem nextByte_toNat_single {e : Enc} (hl : e.left = e.size) (h1 : e.size = 1) : e.nextByte.toNat = e.body.toNat % 256 := by
  simp [Enc.nextByte, hl, h1]

theorem nextByte_toNat_header {e : Enc} (hl : e.left = e.size) (h2 : 2 ≤ e.size.toNat) (h9 : e.size.toNat ≤ 9) :
    e.nextByte.toNat = 248 + (e.size.toNat - 2) := by
  have h1 : e.size ≠ 1 := fun h => by rw [h] at h2; exact absurd h2 (by decide)
  rw [Enc.nextByte, if_pos hl, if_neg h1]
  simp [Config.base, BitVec.toNat_sub]
  omega

theorem nextByte_toNat_tail {e : Enc} (hl : e.left ≠ e.size) :
    e.nextByte.toNat = e.body.toNat / 2 ^ (8 * (e.left.toNat - 1)) % 256 := by
  simp [Enc.nextByte, hl, Nat.shiftRight_eq_div_pow]

/-- What ENC.LOAD in IDLE latches, as numbers (R71). -/
theorem encLoad_latches (v : Word) (h : s.enc.state = .idle) : (encLoad v s).enc.state = .emit ∧
    (encLoad v s).enc.size.toNat = encodedSize v ∧ (encLoad v s).enc.left.toNat = encodedSize v ∧
    (encLoad v s).enc.body = encodedBody v := by
  rw [encLoad_of_idle v h]
  exact ⟨rfl, encodedSize_toNat v, encodedSize_toNat v, rfl⟩

/-- The first byte that ENC.LOAD offers is the first byte of the encoding (R71). -/
theorem encLoad_nextByte (v : Word) (h : s.enc.state = .idle) : (encodeBytes v)[0]? = some (encLoad v s).enc.nextByte := by
  obtain ⟨-, hsize, hleft, hbody⟩ := encLoad_latches v h
  have hnext := nextByte_of_loaded hsize hbody (by rw [hleft]; exact (encodedSize_bounds v).1) (by rw [hleft, hsize])
  rwa [hleft, hsize, Nat.sub_self] at hnext

/-! ### The obligations about one operation -/

/-- Settles O16: ENC.SIZE answers the length selector's result. -/
theorem encSizeIsSmallestLength : Obligations.EncSizeIsSmallestLength := fun v _ hr =>
  ⟨encodedSize v, State.operate_of_reset hr, encodedSize_of_lt, encodedSize_of_le⟩

/-- Settles O17: what ENC.LOAD latches, and the first byte of the encoding on offer. -/
theorem encLoadLatchesValue : Obligations.EncLoadLatchesValue := by
  intro v s hr hs
  obtain ⟨hemit, hsize, hleft, hbody⟩ := encLoad_latches v hs
  have hnat := encodedBody_toNat v
  refine ⟨encLoad v s, State.operate_of_reset hr, hemit, hsize, hleft, fun hv => ?_, fun hv => ?_, ?_, ?_, ?_, ?_, ?_, ?_⟩
  · exact hbody.trans (BitVec.eq_of_toNat_eq (hnat.trans (if_pos hv)))
  · rw [hbody, hnat, if_neg (by omega)]
  · rw [encLoad_of_idle v hs]
  · rw [encLoad_of_idle v hs]
  · simp [Enc.isIdle, hemit]
  · exact (Enc.outValid_iff _).mpr hemit
  · rw [List.head?_eq_getElem?, encLoad_nextByte v hs]
  · rw [Bool.eq_iff_iff, Enc.outLast_iff, decide_eq_true_iff, ← BitVec.toNat_inj, hleft]
    exact and_iff_right hemit

/-- Settles O18: the byte by its position, single, header or tail, and the count down to IDLE. -/
theorem encEmitWritesNextByte : Obligations.EncEmitWritesNextByte := by
  intro s hr hs hrange
  obtain ⟨h1, hle, h9, -⟩ := hrange hs
  refine ⟨encEmit s, s.enc.nextByte.toNat, State.operate_of_reset hr, nextByte_toNat_single, fun hl hne => ?_, nextByte_toNat_tail, ?_⟩
  · have : s.enc.size.toNat ≠ 1 := fun h => hne (BitVec.eq_of_toNat_eq h)
    exact nextByte_toNat_header hl (by omega) h9
  · rw [encEmit_of_emit hs, BitVec.ofNat_toNat, BitVec.setWidth_eq]
    refine ⟨rfl, rfl, rfl, fun hlast => ?_⟩
    simp [Enc.outValid, Enc.isIdle, hlast]

/-- Settles O19: ENC.FULL raises TooFewBytes, and in FAULT no operation that needs IDLE or EMIT is accepted. -/
theorem encFullEntersFault : Obligations.EncFullEntersFault := by
  intro s hr hs
  refine ⟨encFull s, State.operate_of_reset hr, ?_⟩
  rw [encFull_of_emit hs]
  refine ⟨rfl, rfl, rfl, rfl, rfl, rfl, rfl, rfl, fun i u hi hu => ?_⟩
  rw [exec_enc_of_fault rfl hi hu]
  exact ⟨rfl, rfl, rfl⟩

/-- Settles O3: ENC.RESET writes constants and leaves ENC_OUT, so a second one changes nothing. -/
theorem encResetClearsEnc : Obligations.EncResetClearsEnc := fun s hr =>
  ⟨encReset s, State.operate_of_reset hr, rfl, rfl, rfl, rfl, rfl, rfl, rfl, State.operate_of_reset (f := encReset) hr⟩

/-- Settles O20: the equations of the operations outside their control state. -/
theorem encOperationsOutsideTheirState : Obligations.EncOperationsOutsideTheirState := by
  intro v s hr
  refine ⟨fun hs => ?_, fun hs => ?_, fun hs => ?_⟩
  · rw [← encLoad_of_ne_idle v (s := s) (by obtain h | h := hs <;> simp [h])]
    exact State.operate_of_reset hr
  · rw [← encEmit_of_ne_emit (s := s) (by obtain h | h := hs <;> simp [h])]
    exact State.operate_of_reset hr
  · rw [← encFull_of_ne_emit (s := s) (by obtain h | h := hs <;> simp [h])]
    exact State.operate_of_reset hr

/-- Settles O21: in EMIT the outputs are the byte and the test that ENC.EMIT answers. -/
theorem offeredByteIsEmittedByte : Obligations.OfferedByteIsEmittedByte := by
  intro p s hr
  refine ⟨fun hs => ?_, fun hs => ?_⟩
  · have hvalid := (Enc.outValid_iff s.enc).mpr hs
    have hbyte : (s.outputs p).encOutByte = s.enc.nextByte := if_pos hvalid
    have hlast : (s.outputs p).encOutLast = s.enc.atLast := by simp [State.outputs, Enc.outLast, hvalid]
    refine ⟨encEmit s, State.operate_of_reset hr, ?_, ?_⟩
    · rw [encEmit_of_emit hs, hbyte, hlast]
    · rw [hlast]
      rfl
  · rw [← Bool.not_eq_true]
    exact fun hlast => hs ((Enc.outLast_iff s.enc).mp hlast).1

end Sys2Proof.Machine

/-! ## The bytes that ENC still owes for a loaded value, and the loops of ENCODE and ENCODE.CAP over them (R77, R78) -/

namespace Sys2Proof.Machine

variable {s : State}

/-- ENC owes the bytes `rest`: ENC.EMITs offer and emit exactly these, one after another, and then ENC is in IDLE. -/
def State.Owes : List Byte → State → Prop
  | [], s => s.enc.state = .idle
  | b :: bs, s => s.enc.state = .emit ∧ s.enc.nextByte = b ∧ State.Owes bs (encEmit s)

/-- In EMIT with `n` bytes left, ENC owes the last `n` bytes of the encoding of the loaded value (R21, R22). -/
theorem owes_of_loaded {v : Word} {n : Nat} (hs : s.enc.state = .emit) (hsize : s.enc.size.toNat = encodedSize v)
    (hbody : s.enc.body = encodedBody v) (hleft : s.enc.left.toNat = n) (h1 : 1 ≤ n) (hle : n ≤ encodedSize v) :
    s.Owes ((encodeBytes v).drop (encodedSize v - n)) := by
  induction n, h1 using Nat.le_induction generalizing s with
  | base =>
    have hnext := nextByte_of_loaded hsize hbody (by omega) (by omega)
    have hlast : s.enc.left = 1 := BitVec.eq_of_toNat_eq hleft
    rw [hsize, hleft] at hnext
    rw [List.drop_eq_getElem?_toList_append, hnext, List.drop_eq_nil_of_le (by rw [length_encodeBytes]; omega)]
    exact ⟨hs, rfl, by simp [State.Owes, encEmit_of_emit hs, hlast]⟩
  | succ n h1 ih =>
    have hnext := nextByte_of_loaded hsize hbody (by omega) (by omega)
    have hmore : s.enc.left ≠ 1 := fun h => by
      have : n + 1 = 1 := hleft.symm.trans (congrArg BitVec.toNat h)
      omega
    rw [hsize, hleft] at hnext
    rw [List.drop_eq_getElem?_toList_append, hnext, show encodedSize v - (n + 1) + 1 = encodedSize v - n by omega]
    refine ⟨hs, rfl, ih ?_ ?_ ?_ ?_ (by omega)⟩ <;> rw [encEmit_of_emit hs]
    · exact if_neg hmore
    · exact hsize
    · exact hbody
    · exact (count_sub_one_toNat (by omega)).trans (by omega)

/-- After ENC.LOAD in IDLE, ENC owes the whole encoding. -/
theorem encLoad_owes (v : Word) (h : s.enc.state = .idle) : (encLoad v s).Owes (encodeBytes v) := by
  obtain ⟨hemit, hsize, hleft, hbody⟩ := encLoad_latches v h
  simpa using owes_of_loaded hemit hsize hbody hleft (encodedSize_bounds v).1 le_rfl

theorem State.Owes.state_of_ne_nil {rest : List Byte} (h : s.Owes rest) (hne : rest ≠ []) : s.enc.state = .emit := by
  cases rest with
  | nil => exact absurd rfl hne
  | cons b bs => exact h.1

/-- As many ENC.EMITs as `out` has bytes emit `out`, and the bytes behind it stay owed. -/
theorem iterate_encEmit_of_owes {out rest : List Byte} (h : s.Owes (out ++ rest)) :
    (encEmit^[out.length] s).encOut = s.encOut ++ out ∧ (encEmit^[out.length] s).Owes rest := by
  induction out generalizing s with
  | nil => simpa using h
  | cons b bs ih =>
    obtain ⟨hs, hb, hrest⟩ := h
    obtain ⟨hout, howes⟩ := ih hrest
    refine ⟨hout.trans ?_, howes⟩
    simp [encEmit_of_emit hs, hb]

theorem runOps_replicate_encEmit (n : Nat) (hr : s.resetDone = true) :
    runOps (List.replicate n .encEmit) s = .next (encEmit^[n] s) := by
  induction n generalizing s with
  | zero => rfl
  | succ n ih =>
    have hr' : (encEmit s).resetDone = true := by simpa [encEmit_frame] using hr
    exact runOps_cons.mpr ⟨encEmit s, State.operate_of_reset hr, ih hr'⟩

/-- ENC.LOAD and `n` ENC.EMITs as a sequence of operations. -/
theorem runOps_encLoad_encEmits (v : Word) (n : Nat) (hr : s.resetDone = true) :
    runOps (.encLoad v :: List.replicate n .encEmit) s = .next (encEmit^[n] (encLoad v s)) :=
  runOps_cons.mpr ⟨encLoad v s, State.operate_of_reset hr, runOps_replicate_encEmit n (by simpa [encLoad_frame] using hr)⟩

/-! ### The loops -/

/-- ENC.EMIT repeated until `last`, with turns enough, returns the bytes owed and makes one ENC.EMIT for each. -/
theorem emitAll_of_owes {rest : List Byte} {k : Nat} (h : s.Owes rest) (hk : rest.length ≤ k) :
    emitAll k s = (encEmit^[rest.length] s, rest) := by
  induction rest generalizing s k with
  | nil =>
    have hs : s.enc.outValid = false := by simp [Enc.outValid, show s.enc.state = .idle from h]
    cases k <;> simp [emitAll, hs]
  | cons b bs ih =>
    obtain ⟨hs, hb, hrest⟩ := h
    obtain ⟨k, rfl⟩ := Nat.exists_eq_add_one_of_ne_zero (show k ≠ 0 by rintro rfl; simp at hk)
    simp [emitAll, Enc.outValid, hs, hb, ih hrest (by simpa using hk)]

/-- Where ENCODE's loop runs to its end within the room of a sink, ENCODE.CAP's loop does the same (R78). -/
theorem emitCapped_eq_emitAll {k : Nat} (h : (emitAll k s).1.enc.outValid = false) : emitCapped k s = emitAll k s := by
  induction k generalizing s with
  | zero =>
    have hs : s.enc.outValid = false := h
    simp [emitCapped, emitAll, hs]
  | succ k ih =>
    cases hs : s.enc.outValid
    · simp [emitCapped, emitAll, hs]
    · simp only [emitAll, hs, if_true] at h
      simp [emitCapped, emitAll, hs, ih h]

/-- A sink with room for fewer bytes than ENC owes gets as many as it has room for, and then ENC.FULL. -/
theorem emitCapped_of_full {rest : List Byte} {k : Nat} (h : s.Owes rest) (hk : k < rest.length) :
    emitCapped k s = (encFull (encEmit^[k] s), rest.take k) := by
  induction k generalizing s rest with
  | zero =>
    have hs := h.state_of_ne_nil (List.ne_nil_of_length_pos hk)
    simp [emitCapped, Enc.outValid, hs]
  | succ k ih =>
    cases rest with
    | nil => simp at hk
    | cons b bs =>
      obtain ⟨hs, hb, hrest⟩ := h
      simp [emitCapped, Enc.outValid, hs, hb, ih hrest (by simpa using hk)]

/-! ### An encoding from its ENC.LOAD on -/

/-- Emitting the first `k` bytes of an encoding after its ENC.LOAD. -/
theorem emit_prefix_of_loaded (v : Word) {k : Nat} (hs : s.enc.state = .idle) (hk : k ≤ encodedSize v) :
    (encEmit^[k] (encLoad v s)).encOut = s.encOut ++ (encodeBytes v).take k ∧
      (encEmit^[k] (encLoad v s)).Owes ((encodeBytes v).drop k) := by
  have howes := encLoad_owes v hs
  rw [← List.take_append_drop k (encodeBytes v)] at howes
  have hlen : ((encodeBytes v).take k).length = k := List.length_take_of_le (by rwa [length_encodeBytes])
  have hemit := iterate_encEmit_of_owes howes
  rwa [hlen, show (encLoad v s).encOut = s.encOut by simp [encLoad_frame]] at hemit

/-- Before its last byte is emitted, ENC is in EMIT. -/
theorem emit_of_loaded (v : Word) {k : Nat} (hs : s.enc.state = .idle) (hk : k < encodedSize v) :
    (encEmit^[k] (encLoad v s)).enc.state = .emit :=
  (emit_prefix_of_loaded v hs hk.le).2.state_of_ne_nil (by rw [ne_eq, List.drop_eq_nil_iff, length_encodeBytes]; omega)

/-- All bytes of an encoding emitted after its ENC.LOAD. -/
theorem emit_all_of_loaded (v : Word) (hs : s.enc.state = .idle) :
    (encEmit^[encodedSize v] (encLoad v s)).encOut = s.encOut ++ encodeBytes v ∧
      (encEmit^[encodedSize v] (encLoad v s)).enc.state = .idle := by
  have hall := emit_prefix_of_loaded v hs le_rfl
  rwa [← length_encodeBytes, List.take_length, List.drop_length, length_encodeBytes] at hall

/-- ENCODE's loop after an ENC.LOAD, with turns for all bytes of the encoding. -/
theorem emitAll_of_loaded (v : Word) {k : Nat} (hs : s.enc.state = .idle) (hk : encodedSize v ≤ k) :
    emitAll k (encLoad v s) = (encEmit^[encodedSize v] (encLoad v s), encodeBytes v) := by
  rw [← length_encodeBytes] at hk ⊢
  exact emitAll_of_owes (encLoad_owes v hs) hk

theorem encodeExpansion_of_idle (v : Word) (hs : s.enc.state = .idle) :
    encodeExpansion v s = (encEmit^[encodedSize v] (encLoad v s), .ok (encodeBytes v)) := by
  rw [encodeExpansion, if_pos ((Enc.isIdle_iff s.enc).mpr hs), emitAll_of_loaded v hs (k := Config.maxLen) (encodedSize_bounds v).2]

theorem encodeCapExpansion_of_fits (v : Word) {cap : Nat} (hs : s.enc.state = .idle) (hfits : encodedSize v ≤ cap) :
    encodeCapExpansion v cap s = (encEmit^[encodedSize v] (encLoad v s), .ok (encodeBytes v)) := by
  obtain ⟨-, hidle⟩ := emit_all_of_loaded v hs
  have hloop := emitAll_of_loaded v hs hfits
  have hcapped := emitCapped_eq_emitAll (k := cap) (s := encLoad v s) (by rw [hloop]; simp [Enc.outValid, hidle])
  rw [encodeCapExpansion, if_pos ((Enc.isIdle_iff s.enc).mpr hs), hcapped, hloop]
  simp [Enc.faulted, hidle]

theorem encodeCapExpansion_of_full (v : Word) {cap : Nat} (hs : s.enc.state = .idle) (hfull : cap < encodedSize v) :
    encodeCapExpansion v cap s = (encFull (encEmit^[cap] (encLoad v s)), .err .tooFewBytes) := by
  have hloop := emitCapped_of_full (encLoad_owes v hs) (k := cap) (by rwa [length_encodeBytes])
  have hfault := encFull_of_emit (emit_of_loaded v hs hfull)
  rw [encodeCapExpansion, if_pos ((Enc.isIdle_iff s.enc).mpr hs), hloop]
  simp [Enc.faulted, hfault]

/-! ### The obligations -/

/-- Settles O46: ENC.LOAD leaves the whole encoding owed, each ENC.EMIT pays one byte of it, and ENCODE's loop is these ENC.EMITs. -/
theorem encodeEmitsReferenceBytes : Obligations.EncodeEmitsReferenceBytes := by
  intro v s hr
  refine ⟨fun hs => ⟨?_, fun k hk => ?_⟩, fun hs => ?_⟩
  · obtain ⟨hout, hidle⟩ := emit_all_of_loaded v hs
    exact ⟨_, runOps_encLoad_encEmits v _ hr, hout, hidle,
      (State.perform_of_reset hr).trans (congrArg _ (encodeExpansion_of_idle v hs))⟩
  · exact ⟨_, runOps_encLoad_encEmits v k hr, (emit_prefix_of_loaded v hs hk.le).1, emit_of_loaded v hs hk⟩
  · refine ⟨encLoad v s, (State.perform_of_reset hr).trans ?_, ?_⟩
    · simp [encodeExpansion, Enc.isIdle, hs]
    · rw [encLoad_of_ne_idle v hs]
      exact ⟨rfl, rfl⟩

/-- Settles O47: with room for the encoding ENCODE.CAP emits it as ENCODE does, and with less ENC.FULL comes after `cap` bytes. -/
theorem encodeCapFailsAfterCapBytes : Obligations.EncodeCapFailsAfterCapBytes := by
  intro v cap s hr hs
  refine ⟨(encodeCapExpansion v cap s).1, (encodeCapExpansion v cap s).2, State.perform_of_reset hr, fun hfits => ?_,
    fun hfull => ?_⟩
  · obtain ⟨hout, hidle⟩ := emit_all_of_loaded v hs
    rw [encodeCapExpansion_of_fits v hs hfits]
    exact ⟨rfl, hidle, hout⟩
  · rw [encodeCapExpansion_of_full v hs hfull, encFull_of_emit (emit_of_loaded v hs hfull)]
    exact ⟨rfl, rfl, (emit_prefix_of_loaded v hs hfull.le).1⟩

end Sys2Proof.Machine

/-! ## `Encode` as a function: its first byte, its tail, and `Decode` back (R77, R79, R93) -/

namespace Sys2Proof.Machine

variable {v w : Word}

theorem encodeBytes_of_lt (h : v.toNat < 248) : encodeBytes v = [v.setWidth 8] := if_pos ((lt_baseWord_iff v).mpr h)

theorem encodeBytes_of_le (h : 248 ≤ v.toNat) : encodeBytes v = headed (encodedSize v - 1) (encodedBody v) :=
  if_neg (by rw [lt_baseWord_iff]; omega)

/-- The tail of an encoding spells `v - 248` (R56). -/
theorem bigEndian_encodedBody_tail (h : 248 ≤ v.toNat) :
    bigEndian (tailBytes (encodedSize v - 1) (encodedBody v)) = v.toNat - 248 := by
  obtain ⟨-, -, hfits, -⟩ := encodedSize_of_le h
  have hpow := Nat.pow_pos (n := encodedSize v - 1) (show 0 < 256 by decide)
  rw [two_pow_eight_mul] at hfits
  rw [bigEndian_tailBytes, encodedBody_toNat, if_neg (by omega), Nat.mod_eq_of_lt (by omega)]

/-- `Decode` of `Encode` is the value and its size (R97). -/
theorem decodeBytes_encodeBytes (v : Word) : decodeBytes (encodeBytes v) = .ok (v, encodedSize v) := by
  by_cases hv : v.toNat < 248
  · have hbyte : v.setWidth 8 < Config.base := by rw [lt_base_iff, BitVec.toNat_setWidth]; omega
    rw [encodeBytes_of_lt hv, encodedSize_of_lt hv, decodeBytes_single hbyte]
    congr 2
    apply BitVec.eq_of_toNat_eq
    simp only [BitVec.toNat_setWidth]
    omega
  · have hle : 248 ≤ v.toNat := by omega
    obtain ⟨h2, h9, -, -⟩ := encodedSize_of_le hle
    obtain ⟨hheader, hlen⟩ := header_spec (k := encodedSize v - 1) (by omega) (by omega)
    have htail := bigEndian_encodedBody_tail hle
    have hmax : v.toNat - 248 ≤ Config.maxTail.toNat := by
      have := v.isLt
      have : Config.maxTail.toNat = 2 ^ 64 - 1 - 248 := rfl
      omega
    rw [encodeBytes_of_le hle, headed, decodeBytes_header_ok hheader (by rw [length_tailBytes, hlen]) (by rwa [htail]), htail,
      length_tailBytes, Nat.sub_add_cancel hle, BitVec.ofNat_toNat, BitVec.setWidth_eq, Nat.add_sub_cancel' (by omega)]

/-- `Decode` takes as many bytes as the first one tells (R50, R93). -/
theorem consumed_eq_wireLength {b : Byte} {bs : List Byte} {n : Nat} (h : decodeBytes (b :: bs) = .ok (v, n)) :
    n = wireLength b := by
  rw [decodeBytes] at h
  rw [wireLength]
  by_cases hb : b < Config.base
  · rw [if_pos hb] at h ⊢
    exact (Prod.mk.inj (PseudoResult.ok.inj h)).2.symm
  · rw [if_neg hb] at h ⊢
    split at h
    · cases h
    split at h
    · cases h
    · exact (Prod.mk.inj (PseudoResult.ok.inj h)).2.symm

/-- The first byte of an encoding tells its length (R50, R79). -/
theorem encodedSize_of_first {b : Byte} {bs : List Byte} (h : encodeBytes v = b :: bs) : encodedSize v = wireLength b :=
  consumed_eq_wireLength (h ▸ decodeBytes_encodeBytes v)

theorem encodeBytes_injective : Function.Injective encodeBytes := fun v w h => by
  have hdecode := congrArg decodeBytes h
  rw [decodeBytes_encodeBytes, decodeBytes_encodeBytes] at hdecode
  exact (Prod.mk.inj (PseudoResult.ok.inj hdecode)).1

/-- An encoding that starts another encoding is the whole of it, because the first byte fixes the length (R79). -/
theorem encodeBytes_eq_of_prefix (h : encodeBytes v <+: encodeBytes w) : encodeBytes v = encodeBytes w := by
  obtain ⟨b, bs, hv⟩ := List.exists_cons_of_length_pos (l := encodeBytes v) (by
    rw [length_encodeBytes]; exact (encodedSize_bounds v).1)
  obtain ⟨more, hmore⟩ := h
  rw [hv] at hmore
  apply List.IsPrefix.eq_of_length ⟨more, hv ▸ hmore⟩
  rw [length_encodeBytes, length_encodeBytes, encodedSize_of_first hv, encodedSize_of_first hmore.symm]

/-- The tail of an encoding of `n` ≥ 3 bytes needs all its `n - 1` bytes (R59, R79). -/
theorem le_bigEndian_encodeBytes_tail (h3 : 3 ≤ encodedSize v) :
    2 ^ (8 * (encodedSize v - 2)) ≤ bigEndian ((encodeBytes v).drop 1) := by
  have hv : 248 ≤ v.toNat := by
    by_contra hlt
    rw [encodedSize_of_lt (by omega)] at h3
    omega
  obtain ⟨-, -, -, hmin⟩ := encodedSize_of_le hv
  have hshort := hmin (encodedSize v - 1) (by omega) (by omega)
  rw [show encodedSize v - 1 - 1 = encodedSize v - 2 by omega] at hshort
  rw [encodeBytes_of_le hv, headed, List.drop_one, List.tail_cons, bigEndian_encodedBody_tail hv]
  omega

/-- A sequence that starts with the byte 0 spells a number that needs one byte less. -/
theorem bigEndian_lt_of_first_zero {s : List Byte} (h : s[0]? = some 0) : bigEndian s < 256 ^ (s.length - 1) := by
  cases s with
  | nil => simp at h
  | cons b bs =>
    obtain rfl : b = 0 := by simpa using h
    simpa [bigEndian_cons] using bigEndian_lt bs

/-- Settles O48: the first byte tells the length, the tail spells `v - 248` in as few bytes as hold it, and `Decode` undoes `Encode`. -/
theorem encoderLaws : Obligations.EncoderLaws := by
  refine ⟨length_encodeBytes, fun v b bs h => ?_, fun v h3 => ⟨le_bigEndian_encodeBytes_tail h3, fun hzero => ?_⟩,
    fun v w h => encodeBytes_injective h, fun v w => encodeBytes_eq_of_prefix⟩
  · rw [encodedSize_of_first h, wireLength]
    by_cases hb : b < Config.base
    · rw [if_pos hb]
      exact ⟨iff_of_true ((lt_base_iff b).mp hb) rfl, fun hne => absurd rfl hne⟩
    · have hlen := tailLen_of_header hb
      rw [if_neg hb, hlen]
      rw [lt_base_iff] at hb
      omega
  · have hle := le_bigEndian_encodeBytes_tail h3
    have hlt := bigEndian_lt_of_first_zero (s := (encodeBytes v).drop 1) (by rwa [List.getElem?_drop])
    rw [List.length_drop, length_encodeBytes, show encodedSize v - 1 - 1 = encodedSize v - 2 by omega, ← two_pow_eight_mul] at hlt
    omega

end Sys2Proof.Machine

/-! ## DEC's operations one at a time: an equation for each branch of R85, and R86 to R88 -/

namespace Sys2Proof.Machine

variable {b : Byte} {s : State}

theorem decAccept_eq_of_single (hs : s.dec.state = .notStarted) (hb : b < Config.base) : decAccept b s = { s with
    dec := { s.dec with value := b.setWidth 64, state := .ready }
    decIn := s.decIn ++ [b]
    outcome := .ok (.done true) } := by
  simpa [hs, hb] using decAccept_cases b s

theorem decAccept_eq_of_header (hs : s.dec.state = .notStarted) (hb : ¬ b < Config.base) : decAccept b s = { s with
    dec := { s.dec with remaining := BitVec.ofNat 4 (tailLen b), acc := 0, state := .awaitingTail }
    decIn := s.decIn ++ [b]
    outcome := .ok (.done false) } := by
  simpa [hs, hb] using decAccept_cases b s

theorem decAccept_eq_of_overflow (hs : s.dec.state = .awaitingTail) (hmax : Config.maxTail < accumulate s.dec.acc b) :
    decAccept b s = { s with
      dec := { s.dec with acc := accumulate s.dec.acc b, state := .failed }
      decErr := true
      decIn := s.decIn ++ [b]
      outcome := .err .valueTooLarge } := by
  simpa [hs, hmax] using decAccept_cases b s

theorem decAccept_eq_of_lastTail (hs : s.dec.state = .awaitingTail) (hmax : ¬ Config.maxTail < accumulate s.dec.acc b)
    (h1 : s.dec.remaining = 1) : decAccept b s = { s with
      dec := { state := .ready, remaining := 0, acc := accumulate s.dec.acc b, value := accumulate s.dec.acc b + Config.baseWord }
      decIn := s.decIn ++ [b]
      outcome := .ok (.done true) } := by
  simpa [hs, hmax, h1] using decAccept_cases b s

theorem decAccept_eq_of_moreTail (hs : s.dec.state = .awaitingTail) (hmax : ¬ Config.maxTail < accumulate s.dec.acc b)
    (h1 : s.dec.remaining ≠ 1) : decAccept b s = { s with
      dec := { s.dec with remaining := s.dec.remaining - 1, acc := accumulate s.dec.acc b }
      decIn := s.decIn ++ [b]
      outcome := .ok (.done false) } := by
  have h0 : s.dec.remaining - 1#4 ≠ 0#4 := sub_ne_zero.mpr h1
  simpa [hs, hmax, h0] using decAccept_cases b s

theorem decAccept_eq_of_not_inReady (b : Byte) (hs : s.dec.state = .ready ∨ s.dec.state = .failed) :
    decAccept b s = { s with outcome := .notAccepted } := by
  obtain hs | hs := hs <;> simpa [hs] using decAccept_cases b s

theorem decValue_of_ready (hs : s.dec.state = .ready) : decValue s = { s with outcome := .ok (.value s.dec.value) } := by
  obtain ⟨-, e⟩ | ⟨hne, -⟩ := decValue_cases s
  · exact e
  · exact absurd hs hne

theorem decValue_of_ne_ready (hs : s.dec.state ≠ .ready) : decValue s = { s with outcome := .err .notReady } := by
  obtain ⟨hready, -⟩ | ⟨-, e⟩ := decValue_cases s
  · exact absurd hready hs
  · exact e

theorem exec_decValue (hr : s.resetDone = true) : exec .decValue s = .next (decValue s) := State.operate_of_reset hr

/-- Settles O2: DEC.RESET writes constants, so a second one changes nothing. -/
theorem decResetClearsDec : Obligations.DecResetClearsDec := fun s hr =>
  ⟨decReset s, State.operate_of_reset hr, rfl, rfl, rfl, rfl, rfl, rfl, State.operate_of_reset (f := decReset) hr⟩

/-- Settles O8: READY and FAILED are the states in which dec_in_ready is 0. -/
theorem decAcceptOutsideItsStates : Obligations.DecAcceptOutsideItsStates := fun b s hr hs =>
  ⟨(exec_decAccept b hr).trans (congrArg _ (decAccept_eq_of_not_inReady b hs)), (Dec.inReady_eq_false_iff s.dec).mpr hs⟩

/-- DEC.VALUE leaves the DEC that its answer comes from, so a repetition gives the same. -/
theorem decValue_idempotent (s : State) : decValue (decValue s) = decValue s := by
  by_cases hs : s.dec.state = .ready
  · rw [decValue_of_ready hs]
    exact decValue_of_ready hs
  · rw [decValue_of_ne_ready hs]
    exact decValue_of_ne_ready hs

/-- Settles O9: the equations of DEC.VALUE, and its idempotence. -/
theorem decValueReadsWithoutEffect : Obligations.DecValueReadsWithoutEffect := by
  refine fun s hr => ⟨fun hs => ?_, fun hs => ?_, fun t ht => ?_⟩
  · rw [exec_decValue hr, decValue_of_ready hs]
  · rw [exec_decValue hr, decValue_of_ne_ready hs]
  · obtain ⟨-, rfl⟩ := State.operate_eq_next.mp ht
    rw [exec_decValue ((exec_bookkeeping ht).1 hr), decValue_idempotent]

/-- Settles O7: each branch by its equation, with its sums and comparisons as numbers. -/
theorem decAcceptTransitions : Obligations.DecAcceptTransitions := by
  intro b s hr hs
  refine ⟨decAccept b s, exec_decAccept b hr, decAccept_decIn ((Dec.inReady_iff _).mpr hs), fun hn hb => ?_, fun hn hb => ?_,
    fun hw a ha => ?_, fun d hd => (decAccept_done hd).symm⟩
  · rw [decAccept_eq_of_single hn ((lt_base_iff b).mpr hb), BitVec.ofNat_toNat]
    exact ⟨rfl, rfl⟩
  · have hheader : ¬ b < Config.base := by rw [lt_base_iff]; omega
    rw [decAccept_eq_of_header hn hheader, tailLen_of_header hheader, show b.toNat - 248 + 1 = b.toNat - 247 by omega]
    exact ⟨rfl, rfl⟩
  · rw [← accumulate_toNat] at ha
    have hacc : BitVec.ofNat 64 a = accumulate s.dec.acc b := by rw [ha, BitVec.ofNat_toNat, BitVec.setWidth_eq]
    have hmax : Config.maxTail < accumulate s.dec.acc b ↔ 2 ^ 64 - 1 - 248 < a := ha ▸ maxTail_lt_iff _
    rw [hacc, ← add_baseWord_eq ha.symm]
    refine ⟨fun h => ?_, fun h h1 => ?_, fun h h1 => ?_⟩
    · rw [decAccept_eq_of_overflow hw (hmax.mpr h)]
      exact ⟨rfl, rfl⟩
    · rw [decAccept_eq_of_lastTail hw (mt hmax.mp (by omega)) h1]
      exact ⟨rfl, rfl⟩
    · rw [decAccept_eq_of_moreTail hw (mt hmax.mp (by omega)) h1]
      exact ⟨rfl, rfl⟩

/-- In the ranges of R31 the sum does not wrap, and only with one byte missing it can come above MAX (R90). -/
theorem accumulate_of_inRange (b : Byte) (hs : s.dec.state = .awaitingTail) (hrange : s.dec.inRange) :
    s.dec.acc.toNat * 256 + b.toNat < 2 ^ 64 ∧
      (Config.maxTail < accumulate s.dec.acc b ↔ s.dec.remaining = 1 ∧ s.dec.acc.toNat = 2 ^ 56 - 1 ∧ 8 ≤ b.toNat) := by
  obtain ⟨h1, h8, hacc⟩ := hrange hs
  have hb := b.isLt
  have hone : s.dec.remaining = 1 ↔ s.dec.remaining.toNat = 1 := BitVec.toNat_inj.symm
  rw [two_pow_eight_mul] at hacc
  have hroom := pow256_le (m := 8 - s.dec.remaining.toNat) (n := 7) (by omega)
  have hsum := accumulate_toNat_of_lt b (show s.dec.acc.toNat < 256 ^ 7 by omega)
  refine ⟨by omega, ?_⟩
  rw [maxTail_lt_iff, hsum, hone]
  by_cases hlast : s.dec.remaining.toNat = 1
  · omega
  · have hroom := pow256_le (m := 8 - s.dec.remaining.toNat) (n := 6) (by omega)
    omega

/-- Settles O10: above MAX only on the eighth tail byte; below it DEC counts the byte. -/
theorem overflowOnlyOnEighthTailByte : Obligations.OverflowOnlyOnEighthTailByte := by
  intro b s t _ hs hrange ht
  obtain ⟨-, rfl⟩ := State.operate_eq_next.mp ht
  obtain ⟨h1, -, -⟩ := hrange hs
  obtain ⟨hfits, hmax⟩ := accumulate_of_inRange b hs hrange
  refine ⟨?_, fun hmore => ?_, hfits⟩
  · rw [← hmax]
    by_cases hover : Config.maxTail < accumulate s.dec.acc b
    · simp [decAccept_eq_of_overflow hs hover, hover]
    · by_cases hlast : s.dec.remaining = 1
      · simp [decAccept_eq_of_lastTail hs hover hlast, hover]
      · simp [decAccept_eq_of_moreTail hs hover hlast, hover]
  · rw [decAccept_eq_of_moreTail hs (fun hover => hmore (hmax.mp hover).1) hmore]
    exact ⟨hs, count_sub_one_toNat h1⟩

end Sys2Proof.Machine

/-! ## Sequences of operations after the first RESET, and on two DECs that are equal (R95, R99) -/

namespace Sys2Proof.Machine

/-- Settles O25: every operation answers, and none undoes the first RESET. -/
theorem everyOperationAnswers : Obligations.EveryOperationAnswers := fun is s hr => by
  obtain ⟨t, ht⟩ := runOps_answers is hr
  exact ⟨t, ht, runOps_induction (P := fun u => u.resetDone = true) (fun _ _ _ hu h => (exec_bookkeeping h).1 hu) ht hr⟩

theorem eq_reset_of_drives_both {i : Instr} (hd : drivesDec i = true) (he : drivesEnc i = true) : i = .reset := by
  revert hd he
  cases i <;> simp [drivesDec, drivesEnc]

/-- An operation that drives DEC, RESET included, does the same to two equal DECs and answers the same. -/
theorem exec_of_dec_eq_of_drivesDec {i : Instr} {s s' t : State} (h : exec i s = .next t) (hr' : s'.resetDone = true)
    (hi : drivesDec i = true) (hdec : s'.dec = s.dec) : ∃ t', exec i s' = .next t' ∧ t'.dec = t.dec ∧ t'.outcome = t.outcome := by
  cases he : drivesEnc i
  · exact exec_of_dec_eq h hr' he hdec
  · obtain rfl := eq_reset_of_drives_both hi he
    cases h
    exact ⟨blockReset s', rfl, rfl, rfl⟩

/-- A sequence of operations that drive DEC does the same to two equal DECs and answers the same. -/
theorem runOps_of_dec_eq {is : List Instr} (his : ∀ i ∈ is, drivesDec i = true) {s s' : State} (hr : s.resetDone = true)
    (hr' : s'.resetDone = true) (hdec : s'.dec = s.dec) (hout : s'.outcome = s.outcome) :
    ∃ u u', runOps is s = .next u ∧ runOps is s' = .next u' ∧ u'.dec = u.dec ∧ u'.outcome = u.outcome := by
  induction is generalizing s s' with
  | nil => exact ⟨s, s', rfl, rfl, hdec, hout⟩
  | cons i is ih =>
    obtain ⟨t, ht⟩ := exec_answers i hr
    obtain ⟨t', ht', hdec', hout'⟩ := exec_of_dec_eq_of_drivesDec ht hr' (his i List.mem_cons_self) hdec
    rw [runOps_cons_of_next is ht, runOps_cons_of_next is ht']
    exact ih (fun j hj => his j (List.mem_cons_of_mem i hj)) ((exec_bookkeeping ht).1 hr) ((exec_bookkeeping ht').1 hr') hdec' hout'

/-- Settles O5: DEC.RESET leaves the DEC and the answer that a fresh block has. -/
theorem decResetIsFreshDec : Obligations.DecResetIsFreshDec := by
  intro s t is hr ht his
  obtain ⟨-, rfl⟩ := State.operate_eq_next.mp ht
  obtain ⟨w, u, hw, hu, hdec, hout⟩ := runOps_of_dec_eq his (s := State.reset) (s' := decReset s) rfl hr rfl rfl
  exact ⟨u, w, hu, hw, hdec, hout⟩

end Sys2Proof.Machine

/-! ## Feeds and their pseudo-operations against `Decode` (R91 to R94, R96, R97) -/

namespace Sys2Proof.Machine

variable {s : State}

/-- DEC.FEEDCHUNKS feeds the concatenation of its chunks (R92). -/
theorem feedEach_eq_feed_flatten (chunks : List (List Byte)) (s : State) : feedEach chunks s = feed chunks.flatten s := by
  induction chunks generalizing s with
  | nil => rfl
  | cons c cs ih =>
    cases hs : s.dec.inReady
    · rw [feed_of_not_inReady hs]
      simp [feedEach, hs]
    · rw [List.flatten_cons, feed_append, ← ih]
      simp [feedEach, hs]

/-- Settles O51: the two run the same feed, behind the same guard. -/
theorem chunksFeedLikeTheirConcatenation : Obligations.ChunksFeedLikeTheirConcatenation := fun chunks s => by
  simp only [feedChunks, decFeed, feedEach_eq_feed_flatten]

/-! ### A feed from a DEC that has not started, by the result of `Decode` -/

section
variable {span : List Byte} (hs : s.dec.state = .notStarted)
include hs

theorem feed_of_ok {v : Word} {n : Nat} (h : decodeBytes span = .ok (v, n)) :
    (feed span s).2 = n ∧ (feed span s).1.dec.state = .ready ∧ (feed span s).1.dec.value = v := by
  obtain ⟨w, e, hready, hvalue⟩ | ⟨e, -⟩ | ⟨e, -⟩ := feed_of_notStarted span hs <;> rw [h] at e
  · injection e with e
    injection e with ev en
    exact ⟨en.symm, hready, hvalue.trans ev.symm⟩
  · cases e
  · cases e

theorem feed_of_tooFewBytes (h : decodeBytes span = .err .tooFewBytes) : (feed span s).2 = span.length ∧
    ((feed span s).1.dec.state = .notStarted ∨ (feed span s).1.dec.state = .awaitingTail) := by
  obtain ⟨w, e, -⟩ | ⟨-, hend⟩ | ⟨e, -⟩ := feed_of_notStarted span hs
  · cases h.symm.trans e
  · exact hend
  · cases h.symm.trans e

theorem feed_of_valueTooLarge (h : decodeBytes span = .err .valueTooLarge) :
    (feed span s).2 = 9 ∧ (feed span s).1.dec.state = .failed := by
  obtain ⟨w, e, -⟩ | ⟨e, -⟩ | ⟨-, hend⟩ := feed_of_notStarted span hs
  · cases h.symm.trans e
  · cases h.symm.trans e
  · exact hend

end

/-! ### The steps of a feed -/

/-- A feed of at least one byte to a DEC that accepts consumes one. -/
theorem feed_consumed_ne_zero {span : List Byte} (hne : span ≠ []) (hin : s.dec.inReady = true) : (feed span s).2 ≠ 0 := by
  obtain ⟨b, bs, rfl⟩ := List.exists_cons_of_ne_nil hne
  rw [feed_cons_of_inReady hin]
  exact Nat.succ_ne_zero _

theorem Dec.status_eq_failed_iff (d : Dec) : d.status = .failed ↔ d.state = .failed := by
  cases hs : d.state <;> simp [Dec.status, hs]

/-- Settles O59: the steps go where `feed` goes, which stops at the end of the bytes or where DEC accepts no more. -/
theorem feedRunsToItsResult : Obligations.FeedRunsToItsResult := by
  intro span later s hh hr hne hin
  obtain ⟨u, hu, hsame, hhost⟩ := runSteps_feed hh hr hne hin
  obtain ⟨-, hdecIn, hstop⟩ := feed_consumed span s
  obtain ⟨-, -, hencOut, -⟩ := feed_frame span s
  have hcount := feed_consumed_ne_zero hne hin
  refine ⟨(feed span s).1, u, (feedResult (feed span s)).2, State.perform_of_reset hr, hu, hsame.dec, hsame.enc,
    hsame.decIn.trans hdecIn, hsame.encOut.trans hencOut, hhost, ?_, ?_, ?_⟩
  · rw [hsame.dec]
    rfl
  · rw [hsame.dec, ← Dec.status_eq_failed_iff]
    simp [feedResult, hcount]
  · rw [hsame.dec]
    exact hstop

/-! ### The one-shot decoders -/

/-- DECODE leaves the DEC and the DEC_IN that its feed leaves: DEC.VALUE changes only the answer. -/
theorem decodeExpansion_feed (span : List Byte) (s : State) :
    (decodeExpansion span s).1.dec = (feed span (decReset s)).1.dec ∧
      (decodeExpansion span s).1.decIn = (feed span (decReset s)).1.decIn := by
  simp only [decodeExpansion]
  split
  · rw [decValue_eq]
    exact ⟨rfl, rfl⟩
  · exact ⟨rfl, rfl⟩
  · exact ⟨rfl, rfl⟩

theorem decodeOp_of_reset (span : List Byte) (hr : s.resetDone = true) :
    decodeOp span s = .next ((decodeExpansion span s).1, decodeBytes span) := by
  rw [← (decodeExpansion_spec span s).1]
  exact State.perform_of_reset hr

/-- Settles O50: the answer is `Decode`'s, and DEC is where the feed from a fresh DEC leaves it. -/
theorem decodeAgreesWithReference : Obligations.DecodeAgreesWithReference := by
  intro span s hr
  obtain ⟨hdec, hin⟩ := decodeExpansion_feed span s
  obtain ⟨-, htaken, -⟩ := feed_consumed span (decReset s)
  refine ⟨(decodeExpansion span s).1, decodeOp_of_reset span hr, ?_⟩
  rw [hdec, hin, htaken]
  refine ⟨fun v n h => ?_, fun h => (feed_of_tooFewBytes rfl h).2, fun h => (feed_of_valueTooLarge rfl h).2⟩
  obtain ⟨hcount, hready, hvalue⟩ := feed_of_ok (s := decReset s) rfl h
  exact ⟨hready, hvalue, by rw [hcount]; rfl⟩

theorem feed_resetDone (span : List Byte) (hr : s.resetDone = true) : (feed span s).1.resetDone = true := by
  simpa [feed_frame] using hr

/-- Settles O52: the chunks are one feed, and its three ends are the three results of `Decode`. -/
theorem streamingEquivalence : Obligations.StreamingEquivalence := by
  intro chunks s hr hs
  refine ⟨(feed chunks.flatten s).1, (feedResult (feed chunks.flatten s)).2,
    (chunksFeedLikeTheirConcatenation chunks s).trans (State.perform_of_reset hr), fun v n h => ?_, fun h => ?_, fun h => ?_⟩ <;>
    rw [exec_decValue (feed_resetDone _ hr)]
  · obtain ⟨hcount, hready, hvalue⟩ := feed_of_ok hs h
    rw [decValue_of_ready hready, hvalue]
    simp [feedResult, Dec.status, hready, hcount]
  · obtain ⟨hcount, hfailed⟩ := feed_of_valueTooLarge hs h
    rw [decValue_of_ne_ready (by simp [hfailed])]
    simp [feedResult, Dec.status, hfailed, hcount]
  · obtain ⟨hcount, hstate⟩ := feed_of_tooFewBytes hs h
    rw [decValue_of_ne_ready (by obtain h | h := hstate <;> simp [h])]
    obtain h | h := hstate <;> simp [feedResult, Dec.status, h, hcount]

/-- Everything `Decode` can answer on a non-empty sequence, by the branches of R93. -/
theorem decodeBytes_cons_cases (b : Byte) (bs : List Byte) :
    (b < Config.base ∧ decodeBytes (b :: bs) = .ok (b.setWidth 64, 1)) ∨
    (¬ b < Config.base ∧ bs.length < tailLen b ∧ decodeBytes (b :: bs) = .err .tooFewBytes) ∨
    (¬ b < Config.base ∧ tailLen b ≤ bs.length ∧ Config.maxTail.toNat < bigEndian (bs.take (tailLen b)) ∧
      decodeBytes (b :: bs) = .err .valueTooLarge) ∨
    (¬ b < Config.base ∧ tailLen b ≤ bs.length ∧ bigEndian (bs.take (tailLen b)) ≤ Config.maxTail.toNat ∧
      decodeBytes (b :: bs) = .ok (BitVec.ofNat 64 (bigEndian (bs.take (tailLen b)) + 248), 1 + tailLen b)) := by
  rw [decodeBytes]
  by_cases hb : b < Config.base
  · simp [hb]
  by_cases hlen : bs.length < tailLen b
  · simp [hb, hlen]
  by_cases hover : Config.maxTail.toNat < bigEndian (bs.take (tailLen b))
  · simp [hb, hlen, hover, Nat.not_lt.mp hlen]
  · simp [hb, hlen, hover, Nat.not_lt.mp hlen, Nat.not_lt.mp hover]

theorem decodeBytes_ne_invalidRange (span : List Byte) : decodeBytes span ≠ .err .invalidRange := by
  cases span with
  | nil => simp [decodeBytes]
  | cons b bs => obtain ⟨-, e⟩ | ⟨-, -, e⟩ | ⟨-, -, -, e⟩ | ⟨-, -, -, e⟩ := decodeBytes_cons_cases b bs <;> simp [e]

/-- Settles O53: the range check comes first; a range inside the buffer goes to DECODE. -/
theorem decodeBufChecksRange : Obligations.DecodeBufChecksRange := by
  refine fun buf offset count s => ⟨fun h => if_pos h, ?_⟩
  rintro before range after rfl rfl rfl hne hr
  have hpos := List.length_pos_of_ne_nil hne
  have hcut : ((before ++ range ++ after).drop (before.length : Int).toNat).take (range.length : Int).toNat = range := by
    simp [List.append_assoc]
  refine ⟨(decodeExpansion range s).1, ?_, decodeBytes_ne_invalidRange range⟩
  rw [decodeBuf, if_neg (by simp only [List.length_append]; omega), hcut, decodeOp_of_reset range hr]

/-! ### The round trip -/

/-- Before its last byte an encoding is too short for `Decode`. -/
theorem decodeBytes_take_encodeBytes {v : Word} {k : Nat} (hk : k < encodedSize v) :
    decodeBytes ((encodeBytes v).take k) = .err .tooFewBytes := by
  cases k with
  | zero => rfl
  | succ k =>
    obtain ⟨b, bs, hv⟩ := List.exists_cons_of_length_pos (l := encodeBytes v) (by rw [length_encodeBytes]; omega)
    rw [encodedSize_of_first hv, wireLength] at hk
    have hb : ¬ b < Config.base := fun hb => by rw [if_pos hb] at hk; omega
    rw [if_neg hb] at hk
    have hshort : (bs.take k).length < tailLen b := by rw [List.length_take]; omega
    rw [hv, List.take_succ_cons, decodeBytes, if_neg hb, if_pos hshort]

/-- A feed that brings DEC to READY ends with the DEC.ACCEPT that answers Done. -/
theorem feed_outcome_of_ready {span : List Byte} (hin : s.dec.inReady = true) (h : (feed span s).1.dec.state = .ready) :
    (feed span s).1.outcome = .ok (.done true) := by
  refine feed_induction (P := fun u => u.dec.state = .ready → u.outcome = .ok (.done true)) (fun b u hu _ hready => ?_) span s
    (fun hs => by simp [Dec.inReady, hs] at hin) h
  obtain ⟨-, -, e⟩ | ⟨-, -, e⟩ | ⟨-, -, e⟩ | ⟨-, -, -, e⟩ | ⟨hw, -, -, e⟩ | ⟨hs, -⟩ := decAccept_cases b u
  · rw [e]
  · simp [e] at hready
  · simp [e] at hready
  · rw [e]
  · simp [e, hw] at hready
  · rw [(Dec.inReady_eq_false_iff u.dec).mpr hs] at hu
    cases hu

/-- Settles O49: `Decode` undoes `Encode` and needs its last byte, and DEC goes as `Decode` does. -/
theorem roundTrip : Obligations.RoundTrip := by
  intro v s hr hs
  refine ⟨decodeBytes_encodeBytes v, ?_, fun k hk => ?_⟩
  · obtain ⟨hcount, hready, hvalue⟩ := feed_of_ok hs (decodeBytes_encodeBytes v)
    have hrun := runOps_decAccept_feed (encodeBytes v) hr
    rw [hcount, ← length_encodeBytes, List.take_length] at hrun
    exact ⟨_, hrun, hready, feed_outcome_of_ready ((Dec.inReady_iff _).mpr (.inl hs)) hready,
      by rw [exec_decValue (feed_resetDone _ hr), decValue_of_ready hready, hvalue]⟩
  · obtain ⟨hcount, hstate⟩ := feed_of_tooFewBytes hs (decodeBytes_take_encodeBytes hk)
    have hrun := runOps_decAccept_feed ((encodeBytes v).take k) hr
    rw [hcount, List.take_length] at hrun
    exact ⟨_, hrun, by obtain h | h := hstate <;> simp [h]⟩

end Sys2Proof.Machine

/-! ## Re-encoding what `Decode` took: canonical and over-long bytes (R59, R100) -/

namespace Sys2Proof.Machine

/-- A sequence spells a number that needs one byte less exactly when it starts with the byte 0. -/
theorem bigEndian_lt_iff_first_zero {s : List Byte} (hne : s ≠ []) : bigEndian s < 256 ^ (s.length - 1) ↔ s[0]? = some 0 := by
  refine ⟨fun h => ?_, bigEndian_lt_of_first_zero⟩
  obtain ⟨b, bs, rfl⟩ := List.exists_cons_of_ne_nil hne
  rw [bigEndian_cons, List.length_cons, Nat.add_sub_cancel] at h
  have hb : b.toNat = 0 := by
    by_contra hb
    have := Nat.le_mul_of_pos_left (256 ^ bs.length) (Nat.pos_of_ne_zero hb)
    omega
  simpa using BitVec.eq_of_toNat_eq hb

/-- What an Ok of `Decode` says: a single byte is its own value, and after a header the value is 248 more than the tail spells. -/
theorem decodeBytes_cons_eq_ok {b : Byte} {bs : List Byte} {v : Word} {n : Nat} (h : decodeBytes (b :: bs) = .ok (v, n)) :
    (b < Config.base ∧ v = b.setWidth 64 ∧ n = 1) ∨
    (¬ b < Config.base ∧ (bs.take (tailLen b)).length = tailLen b ∧ n = tailLen b + 1 ∧
      v.toNat = bigEndian (bs.take (tailLen b)) + 248) := by
  obtain ⟨hb, e⟩ | ⟨-, -, e⟩ | ⟨-, -, -, e⟩ | ⟨hb, hlen, hmax, e⟩ := decodeBytes_cons_cases b bs <;> cases h.symm.trans e
  · exact .inl ⟨hb, rfl, rfl⟩
  · have hbound : Config.maxTail.toNat = 2 ^ 64 - 1 - 248 := rfl
    exact .inr ⟨hb, List.length_take_of_le hlen, Nat.add_comm .., by rw [BitVec.toNat_ofNat, Nat.mod_eq_of_lt (by omega)]⟩

/-- The value that `k` tail bytes carry encodes to `k + 1` bytes or fewer, and to fewer exactly when these are two tail bytes or
more of which the first is 0 (R59). -/
theorem encodedSize_of_tail {v : Word} {tail : List Byte} (hlen : 1 ≤ tail.length) (hv : v.toNat = bigEndian tail + 248) :
    encodedSize v ≤ tail.length + 1 ∧ (encodedSize v ≤ tail.length ↔ 2 ≤ tail.length ∧ tail[0]? = some 0) := by
  have hfits := encodedSize_le_iff v (n := tail.length + 1) (by omega)
  have hlt := bigEndian_lt tail
  have h2 := (encodedSize_of_le (v := v) (by omega)).1
  rw [Nat.add_sub_cancel, two_pow_eight_mul] at hfits
  refine ⟨hfits.mpr (by omega), ?_⟩
  by_cases hlong : 2 ≤ tail.length
  · have hshort := encodedSize_le_iff v hlong
    rw [two_pow_eight_mul] at hshort
    rw [hshort, ← bigEndian_lt_iff_first_zero (List.ne_nil_of_length_pos hlen)]
    omega
  · omega

/-- An encoding of as many bytes as `Decode` took is those bytes. -/
theorem encodeBytes_of_tail {v : Word} {b : Byte} {tail : List Byte} (hb : ¬ b < Config.base) (hlen : tail.length = tailLen b)
    (hv : v.toNat = bigEndian tail + 248) (hsize : encodedSize v = tail.length + 1) : encodeBytes v = b :: tail := by
  have hle : 248 ≤ v.toNat := by omega
  have htail : bigEndian (tailBytes (encodedSize v - 1) (encodedBody v)) = bigEndian tail := by
    rw [bigEndian_encodedBody_tail hle, hv, Nat.add_sub_cancel]
  rw [hsize, Nat.add_sub_cancel] at htail
  rw [encodeBytes_of_le hle, hsize, Nat.add_sub_cancel, headed, bigEndian_injective (length_tailBytes ..) htail, hlen,
    header_of_tailLen hb]

/-- Settles O54: the re-encoding has the consumed bytes' length exactly when they are canonical, and then it is those bytes. -/
theorem reencodingNeedsCanonicalInput : Obligations.ReencodingNeedsCanonicalInput := by
  intro span v n h
  cases span with
  | nil => cases h
  | cons b bs =>
    obtain ⟨hb, rfl, rfl⟩ | ⟨hb, hlen, rfl, hv⟩ := decodeBytes_cons_eq_ok h
    · have hlt := (lt_base_iff b).mp hb
      have hv : (b.setWidth 64).toNat < 248 := by rw [BitVec.toNat_setWidth]; omega
      have hsame : encodeBytes (b.setWidth 64) = [b] := by rw [encodeBytes_of_lt hv]; simp
      exact ⟨iff_of_true hsame (.inl (by decide)), fun h3 => absurd h3 (by decide)⟩
    · have h1 := one_le_tailLen b
      have hfirst : (b :: bs)[1]? = (bs.take (tailLen b))[0]? := by
        rw [List.getElem?_cons_succ, List.getElem?_take_of_lt h1]
      obtain ⟨hle, hshort⟩ := encodedSize_of_tail (by omega) hv
      rw [hlen] at hle hshort
      rw [List.take_succ_cons, hfirst]
      have hsame : encodeBytes v = b :: bs.take (tailLen b) ↔ encodedSize v = tailLen b + 1 := by
        refine ⟨fun e => ?_, fun e => encodeBytes_of_tail hb hlen hv (hlen.symm ▸ e)⟩
        rw [← length_encodeBytes, e, List.length_cons, hlen]
      have hcanonical : encodedSize v = tailLen b + 1 ↔ tailLen b + 1 ≤ 2 ∨ (bs.take (tailLen b))[0]? ≠ some 0 := by
        rw [show encodedSize v = tailLen b + 1 ↔ ¬ encodedSize v ≤ tailLen b by omega, hshort, not_and_or,
          show ¬ 2 ≤ tailLen b ↔ tailLen b + 1 ≤ 2 by omega]
      exact ⟨hsame.trans hcanonical, fun h3 hzero => Nat.lt_succ_of_le (hshort.mpr ⟨by omega, hzero⟩)⟩

end Sys2Proof.Machine

/-! ## The signed mapping: SGN.TOU and SGN.TOS as arithmetic, and the signed pseudo-operations (R105 to R108) -/

namespace Sys2Proof.Machine

variable {x u : Word} {s : State} {span : List Byte}

/-- SGN.TOU changes nothing but the answer, in every state (R105). -/
theorem exec_sgnTou (x : Word) (s : State) : exec (.sgnTou x) s = .next { s with outcome := .ok (.unsigned (toUnsigned x)) } := rfl

/-- SGN.TOS changes nothing but the answer, in every state (R106). -/
theorem exec_sgnTos (u : Word) (s : State) : exec (.sgnTos u) s = .next { s with outcome := .ok (.signed (toSigned u)) } := rfl

/-! ### The two functions as arithmetic -/

/-- Bit 63 is the sign. -/
theorem signBit_iff : x.getLsbD 63 = true ↔ x.toInt < 0 := by
  rw [← show x.msb = x.getLsbD 63 from x.msb_eq_getLsbD_last, BitVec.msb_eq_toInt, decide_eq_true_iff]

/-- Bit 0 is the parity. -/
theorem lowBit_iff : u.getLsbD 0 = true ↔ u.toNat % 2 = 1 := by
  rw [BitVec.getLsbD, Nat.testBit_zero, decide_eq_true_iff]

/-- A non-negative `x` is below 2^63, so that the shift drops no bit. -/
theorem toUnsigned_of_nonneg (h : 0 ≤ x.toInt) : ((toUnsigned x).toNat : Int) = 2 * x.toInt := by
  have hfits := BitVec.toInt_pos_iff.mp h
  rw [toUnsigned, if_neg (mt signBit_iff.mp (Int.not_lt.mpr h)), BitVec.toNat_shiftLeft, Nat.shiftLeft_eq,
    BitVec.toInt_eq_toNat_of_lt hfits]
  omega

/-- The pattern of a negative `x` is 2^64 more than `x`: the shift drops its top bit, and the complement negates. -/
theorem toUnsigned_of_neg (h : x.toInt < 0) : ((toUnsigned x).toNat : Int) = -2 * x.toInt - 1 := by
  have htop := BitVec.toInt_neg_iff.mp h
  rw [toUnsigned, if_pos (signBit_iff.mpr h), BitVec.toNat_not, BitVec.toNat_shiftLeft, Nat.shiftLeft_eq, BitVec.toInt_eq_toNat_cond,
    if_neg (Nat.not_lt.mpr htop)]
  omega

theorem toSigned_of_even (h : u.toNat % 2 = 0) : (toSigned u).toInt = (u.toNat / 2 : Nat) := by
  rw [toSigned, if_neg (by rw [lowBit_iff, h]; decide), BitVec.toInt_ushiftRight, if_neg one_ne_zero, Nat.shiftRight_one]

/-- The half is below 2^63, so that its complement is negative. -/
theorem toSigned_of_odd (h : u.toNat % 2 = 1) : (toSigned u).toInt = -(((u.toNat + 1) / 2 : Nat) : Int) := by
  rw [toSigned, if_pos (lowBit_iff.mpr h), BitVec.toInt_eq_toNat_cond, BitVec.toNat_not, BitVec.toNat_ushiftRight, Nat.shiftRight_one,
    if_neg (by omega)]
  omega

/-! ### The two functions are inverse -/

@[simp] theorem toSigned_toUnsigned (x : Word) : toSigned (toUnsigned x) = x := by
  apply BitVec.eq_of_toInt_eq
  by_cases hx : 0 ≤ x.toInt
  · have hu := toUnsigned_of_nonneg hx
    rw [toSigned_of_even (by omega)]
    omega
  · have hu := toUnsigned_of_neg (Int.not_le.mp hx)
    rw [toSigned_of_odd (by omega)]
    omega

@[simp] theorem toUnsigned_toSigned (u : Word) : toUnsigned (toSigned u) = u := by
  apply BitVec.eq_of_toNat_eq
  obtain hu | hu := Nat.mod_two_eq_zero_or_one u.toNat
  · have hx := toSigned_of_even hu
    have hback := toUnsigned_of_nonneg (x := toSigned u) (by omega)
    omega
  · have hx := toSigned_of_odd hu
    have hback := toUnsigned_of_neg (x := toSigned u) (by omega)
    omega

/-! ### The pseudo-operations for signed values -/

theorem encodeOp_of_idle (v : Word) (hr : s.resetDone = true) (hs : s.enc.state = .idle) :
    encodeOp v s = .next (encEmit^[encodedSize v] (encLoad v s), .ok (encodeBytes v)) :=
  (State.perform_of_reset hr).trans (congrArg _ (encodeExpansion_of_idle v hs))

/-- DECODE.S after an Ok of DECODE ends with SGN.TOS on the value (R108). -/
theorem decodeSigned_of_ok {n : Nat} (hr : s.resetDone = true) (h : decodeBytes span = .ok (u, n)) :
    decodeSigned span s = .next (sgnTos u (decodeExpansion span s).1, .ok (toSigned u, n)) := by
  rw [decodeSigned, State.perform_of_reset hr, decodeSignedExpansion, (decodeExpansion_spec span s).1, h]

/-- DECODE.S passes an error of DECODE through (R108). -/
theorem decodeSigned_of_err {k : ErrorKind} (hr : s.resetDone = true) (h : decodeBytes span = .err k) :
    decodeSigned span s = .next ((decodeExpansion span s).1, .err k) := by
  rw [decodeSigned, State.perform_of_reset hr, decodeSignedExpansion, (decodeExpansion_spec span s).1, h]

/-! ### The obligations -/

/-- Settles O22, by the sign of `x`. -/
theorem sgnTouMapsSignedToUnsigned : Obligations.SgnTouMapsSignedToUnsigned := fun x s =>
  ⟨toUnsigned x, exec_sgnTou x s, toUnsigned_of_nonneg, toUnsigned_of_neg⟩

/-- Settles O23, by the parity of `u`. -/
theorem sgnTosMapsUnsignedToSigned : Obligations.SgnTosMapsUnsignedToSigned := fun u s =>
  ⟨toSigned u, exec_sgnTos u s, toSigned_of_even, toSigned_of_odd⟩

/-- Settles O24: the operations answer the two functions, which are inverse, and the range follows from the arithmetic of SGN.TOU. -/
theorem signedMappingsAreInverse : Obligations.SignedMappingsAreInverse := by
  refine ⟨fun x s => ⟨?_, ?_, fun hlow hhigh => ?_⟩, by decide⟩
  · exact ⟨toUnsigned x, _, exec_sgnTou x s, rfl, _, exec_sgnTos (toUnsigned x) _, by rw [toSigned_toUnsigned]⟩
  · exact ⟨toSigned x, _, exec_sgnTos x s, rfl, _, exec_sgnTou (toSigned x) _, by rw [toUnsigned_toSigned]⟩
  · refine ⟨toUnsigned x, exec_sgnTou x s, ?_⟩
    by_cases hx : 0 ≤ x.toInt
    · have hu := toUnsigned_of_nonneg hx
      omega
    · have hu := toUnsigned_of_neg (Int.not_le.mp hx)
      omega

/-- Settles O55: `Decode` undoes `Encode`, SGN.TOS undoes SGN.TOU, and DECODE.S follows DECODE's answer. -/
theorem signedRoundTrip : Obligations.SignedRoundTrip := by
  refine fun x s s' hr hr' => ⟨fun hs => ?_, rfl, fun span => ?_⟩
  · have hback := decodeSigned_of_ok hr' (decodeBytes_encodeBytes (toUnsigned x))
    rw [toSigned_toUnsigned, ← length_encodeBytes] at hback
    exact ⟨_, _, _, encodeOp_of_idle (toUnsigned x) hr hs, rfl, hback⟩
  · exact ⟨_, _, decodeOp_of_reset span hr', fun k h => decodeSigned_of_err hr' h,
      fun u n h => ⟨_, exec_sgnTos u _, decodeSigned_of_ok hr' h⟩⟩

end Sys2Proof.Machine

/-! ## Which operation gives which answer: NotAccepted (R7, R88, R116), the errors (R119), and what FAILED and FAULT leave (R120, R121) -/

namespace Sys2Proof.Machine

variable {i : Instr} {b : Byte} {s t : State}

/-! ### The byte that an operation offers to DEC -/

/-- DEC is offered the byte `b`: by DEC.ACCEPT, or by a wire-format row as its first byte (log entry 3). -/
def OffersByte (i : Instr) (b : Byte) : Prop := i = .decAccept b ∨ i.span.head? = some b

theorem exists_offersByte_iff : (∃ b, OffersByte i b) ↔ (∃ b, i = .decAccept b) ∨ i.span ≠ [] := by
  simp only [OffersByte, exists_or, List.head?_eq_some_iff, List.ne_nil_iff_exists_cons]

/-- An operation that offers a byte is DEC.ACCEPT of it, but for the host's script. -/
theorem exec_of_offersByte (hi : OffersByte i b) (h : exec i s = .next t) : ∃ rest, t = (decAccept b s).feedNext rest := by
  obtain rfl | hhead := hi
  · obtain ⟨-, rfl⟩ := State.operate_eq_next.mp h
    exact ⟨[], by simp [feedNext_eq]⟩
  · obtain ⟨rest, hspan⟩ := List.head?_eq_some_iff.mp hhead
    rw [exec_of_span s (by simp [hspan]), hspan] at h
    exact ⟨rest, (State.operate_eq_next.mp h).2⟩

/-- A DEC that accepts no byte leaves the byte, and a row's other bytes, where they are (R88). -/
theorem exec_of_offersByte_of_not_inReady (hi : OffersByte i b) (h : exec i s = .next t)
    (hs : s.dec.state = .ready ∨ s.dec.state = .failed) : t = { s with outcome := .notAccepted } := by
  obtain ⟨rest, rfl⟩ := exec_of_offersByte hi h
  have hin : s.dec.inReady = false := (Dec.inReady_eq_false_iff s.dec).mpr hs
  simp [decAccept_eq_of_not_inReady b hs, feedNext_eq, hin]

/-- Everything an operation can answer: Ok without a value; or it offers a byte to DEC and answers as DEC.ACCEPT does; or it is one of
the four others whose answer depends on the state. -/
theorem exec_answer_cases (h : exec i s = .next t) :
    (∃ r, t.outcome = .ok r ∧ ∀ v, r ≠ .value v) ∨ (∃ b, OffersByte i b ∧ t.outcome = (decAccept b s).outcome) ∨
    (i = .decValue ∧ t = decValue s) ∨ (∃ v, i = .encLoad v ∧ t = encLoad v s) ∨ (i = .encEmit ∧ t = encEmit s) ∨
    (i = .encFull ∧ t = encFull s) := by
  obtain ⟨-, rfl⟩ | ⟨x, -, rfl⟩ | ⟨u, -, rfl⟩ | ⟨-, h⟩ := exec_cases h
  · exact .inl ⟨_, rfl, nofun⟩
  · exact .inl ⟨_, rfl, nofun⟩
  · exact .inl ⟨_, rfl, nofun⟩
  obtain ⟨v, -, rfl⟩ | hload | hemit | hfull | ⟨-, rfl⟩ | ⟨b, hi, rfl⟩ | ⟨-, rfl⟩ | hvalue | ⟨hspan, rfl⟩ := h
  · exact .inl ⟨_, rfl, nofun⟩
  · exact .inr (.inr (.inr (.inl hload)))
  · exact .inr (.inr (.inr (.inr (.inl hemit))))
  · exact .inr (.inr (.inr (.inr (.inr hfull))))
  · exact .inl ⟨_, rfl, nofun⟩
  · exact .inr (.inl ⟨b, .inl hi, rfl⟩)
  · exact .inl ⟨_, rfl, nofun⟩
  · exact .inr (.inr (.inl hvalue))
  · obtain ⟨hnil, -⟩ | ⟨b, rest, hcons, e⟩ := offer_cases i.span s
    · exact absurd hnil hspan
    · exact .inr (.inl ⟨b, .inr (by simp [hcons]), by simp [e]⟩)

/-! ### NotAccepted (R7, R88, R116) -/

/-- The operation is one that the state of its unit does not accept (R116). -/
def OutsideAcceptance (i : Instr) (s : State) : Prop :=
  (((∃ b, i = .decAccept b) ∨ i.span ≠ []) ∧ (s.dec.state = .ready ∨ s.dec.state = .failed)) ∨
  ((∃ v, i = .encLoad v) ∧ (s.enc.state = .emit ∨ s.enc.state = .fault)) ∨
  ((i = .encEmit ∨ i = .encFull) ∧ (s.enc.state = .idle ∨ s.enc.state = .fault))

theorem decAccept_notAccepted (h : (decAccept b s).outcome = .notAccepted) : s.dec.state = .ready ∨ s.dec.state = .failed := by
  obtain ⟨-, -, e⟩ | ⟨-, -, e⟩ | ⟨-, -, e⟩ | ⟨-, -, -, e⟩ | ⟨-, -, -, e⟩ | ⟨hs, -⟩ := decAccept_cases b s
  case inr.inr.inr.inr.inr => exact hs
  all_goals exact absurd h (by simp [e])

/-- An operation outside its acceptance condition answers NotAccepted and does nothing else (log entry 2). -/
theorem exec_of_outsideAcceptance (hi : OutsideAcceptance i s) (h : exec i s = .next t) : t = { s with outcome := .notAccepted } := by
  obtain ⟨hoffer, hs⟩ | ⟨⟨v, rfl⟩, hs⟩ | ⟨rfl | rfl, hs⟩ := hi
  · obtain ⟨b, hb⟩ := exists_offersByte_iff.mpr hoffer
    exact exec_of_offersByte_of_not_inReady hb h hs
  · exact (State.operate_eq_next.mp h).2.trans (encLoad_of_ne_idle v (by obtain h | h := hs <;> simp [h]))
  · exact (State.operate_eq_next.mp h).2.trans (encEmit_of_ne_emit (by obtain h | h := hs <;> simp [h]))
  · exact (State.operate_eq_next.mp h).2.trans (encFull_of_ne_emit (by obtain h | h := hs <;> simp [h]))

/-- Inside its acceptance condition each operation answers Ok or Err. -/
theorem outsideAcceptance_of_notAccepted (h : exec i s = .next t) (hout : t.outcome = .notAccepted) : OutsideAcceptance i s := by
  obtain ⟨r, hok, -⟩ | ⟨b, hb, hacc⟩ | ⟨-, rfl⟩ | ⟨v, rfl, rfl⟩ | ⟨rfl, rfl⟩ | ⟨rfl, rfl⟩ := exec_answer_cases h
  · simp [hok] at hout
  · exact .inl ⟨exists_offersByte_iff.mp ⟨b, hb⟩, decAccept_notAccepted (hacc ▸ hout)⟩
  · obtain ⟨-, e⟩ | ⟨-, e⟩ := decValue_cases s <;> simp [e] at hout
  · obtain ⟨-, e⟩ | ⟨hs, -⟩ := encLoad_cases v s
    · simp [e] at hout
    · exact .inr (.inl ⟨⟨v, rfl⟩, hs⟩)
  · obtain ⟨-, e⟩ | ⟨hs, -⟩ := encEmit_cases s
    · simp [e] at hout
    · exact .inr (.inr ⟨.inl rfl, hs⟩)
  · obtain ⟨-, e⟩ | ⟨hs, -⟩ := encFull_cases s
    · simp [e] at hout
    · exact .inr (.inr ⟨.inr rfl, hs⟩)

/-- Settles O26: outside its acceptance condition an operation is NotAccepted, and inside it none is. -/
theorem notAcceptedExactlyOutsideAcceptance : Obligations.NotAcceptedExactlyOutsideAcceptance := fun _ _ _ h =>
  ⟨⟨outsideAcceptance_of_notAccepted h, fun hi => by rw [exec_of_outsideAcceptance hi h]⟩,
    fun hout => exec_of_outsideAcceptance (outsideAcceptance_of_notAccepted h hout) h⟩

/-! ### The errors (R111, R119) -/

/-- DEC.ACCEPT raises no other error than ValueTooLarge, and only on a tail byte. -/
theorem decAccept_err {k : ErrorKind} (h : (decAccept b s).outcome = .err k) : k = .valueTooLarge ∧ decAccept b s = { s with
    dec := { s.dec with state := .failed, acc := accumulate s.dec.acc b }
    decErr := true
    decIn := s.decIn ++ [b]
    outcome := .err .valueTooLarge } := by
  obtain ⟨-, -, e⟩ | ⟨-, -, e⟩ | ⟨-, -, e⟩ | ⟨-, -, -, e⟩ | ⟨-, -, -, e⟩ | ⟨-, e⟩ := decAccept_cases b s
  case inr.inr.inl =>
    rw [e] at h
    cases h
    exact ⟨rfl, e⟩
  all_goals exact absurd h (by simp [e])

/-- The three errors that an operation of the block can raise: who raises each, and the state after it (R119). -/
theorem exec_err_cases {k : ErrorKind} (h : exec i s = .next t) (hk : t.outcome = .err k) :
    (k = .valueTooLarge ∧ ∃ b, OffersByte i b) ∨
    (k = .tooFewBytes ∧ i = .encFull ∧
      t = { s with enc := { s.enc with state := .fault }, encErr := true, outcome := .err .tooFewBytes }) ∨
    (k = .notReady ∧ i = .decValue ∧ s.dec.state ≠ .ready ∧ t = { s with outcome := .err .notReady }) := by
  obtain ⟨r, hok, -⟩ | ⟨b, hb, hacc⟩ | ⟨hi, rfl⟩ | ⟨v, -, rfl⟩ | ⟨-, rfl⟩ | ⟨hi, rfl⟩ := exec_answer_cases h
  · simp [hok] at hk
  · exact .inl ⟨(decAccept_err (hacc ▸ hk)).1, b, hb⟩
  · obtain ⟨-, e⟩ | ⟨hs, e⟩ := decValue_cases s <;> rw [e] at hk <;> cases hk
    exact .inr (.inr ⟨rfl, hi, hs, e⟩)
  · obtain ⟨-, e⟩ | ⟨-, e⟩ := encLoad_cases v s <;> simp [e] at hk
  · obtain ⟨-, e⟩ | ⟨-, e⟩ := encEmit_cases s <;> simp [e] at hk
  · obtain ⟨-, e⟩ | ⟨-, e⟩ := encFull_cases s <;> rw [e] at hk <;> cases hk
    exact .inr (.inl ⟨rfl, hi, e⟩)

/-- ValueTooLarge from an operation that offers `b`: DEC is FAILED with the sum in dec_acc, `b` has joined DEC_IN, and the rest of DEC
and all of ENC are as they were (R119). -/
theorem exec_valueTooLarge (hi : OffersByte i b) (h : exec i s = .next t) (hk : t.outcome = .err .valueTooLarge) :
    t.dec = { s.dec with state := .failed, acc := accumulate s.dec.acc b } ∧ t.decErr = true ∧ t.decIn = s.decIn ++ [b] ∧
      t.enc = s.enc := by
  obtain ⟨rest, rfl⟩ := exec_of_offersByte hi h
  simp [(decAccept_err hk).2]

/-- In a cycle with dec_rd, dec_rd_err is 1 where DEC has no value (R65). -/
theorem outputs_decRdErr {p : PortIn} (hp : p.decRd = true) (hs : s.dec.state ≠ .ready) : (s.outputs p).decRdErr = true := by
  simp [State.outputs, hp, Dec.done, hs]

/-- Settles O27: by the error, the operation that raises it and the state after it. -/
theorem errorsArePrecise : Obligations.ErrorsArePrecise := by
  intro i s t k h hk
  obtain ⟨rfl, b, hb⟩ | ⟨rfl, hi, rfl⟩ | ⟨rfl, hi, hs, ht⟩ := exec_err_cases h hk
  · obtain ⟨hdec, herr, -, henc⟩ := exec_valueTooLarge hb h hk
    have hall (c : Byte) (hc : OffersByte i c) :
        t.dec = { s.dec with state := .failed, acc := accumulate s.dec.acc c } ∧ t.decIn = s.decIn ++ [c] :=
      have ⟨hdec, _, hin, _⟩ := exec_valueTooLarge hc h hk
      ⟨hdec, hin⟩
    refine ⟨fun _ => ?_, nofun, nofun, nofun, fun _ => exists_offersByte_iff.mp ⟨b, hb⟩⟩
    have hfailed : t.dec.state = .failed := by rw [hdec]
    exact ⟨hfailed, herr, (Dec.faulted_iff t.dec).mpr hfailed, by simp [Dec.cause_eq, hfailed],
      (Dec.inReady_eq_false_iff t.dec).mpr (.inr hfailed), by simp [Dec.done, hfailed], by rw [hdec], henc, hall⟩
  · exact ⟨nofun, fun _ => ⟨hi, rfl, rfl, rfl, rfl, rfl, rfl, rfl⟩, nofun, nofun, nofun⟩
  · exact ⟨nofun, nofun, fun _ => ⟨hi, ht, fun p hp => outputs_decRdErr hp hs⟩, nofun, nofun⟩

/-! ### FAILED and FAULT (R120, R121) -/

/-- An operation answers a value in READY alone (R87). -/
theorem ready_of_value {v : Word} (h : exec i s = .next t) (hout : t.outcome = .ok (.value v)) : s.dec.state = .ready := by
  obtain ⟨r, hok, hne⟩ | ⟨b, -, hacc⟩ | ⟨-, rfl⟩ | ⟨w, -, rfl⟩ | ⟨-, rfl⟩ | ⟨-, rfl⟩ := exec_answer_cases h
  · simp [hok, hne v] at hout
  · rw [hacc] at hout
    obtain ⟨-, -, e⟩ | ⟨-, -, e⟩ | ⟨-, -, e⟩ | ⟨-, -, -, e⟩ | ⟨-, -, -, e⟩ | ⟨-, e⟩ := decAccept_cases b s <;> simp [e] at hout
  · obtain ⟨hs, -⟩ | ⟨-, e⟩ := decValue_cases s
    · exact hs
    · simp [e] at hout
  · obtain ⟨-, e⟩ | ⟨-, e⟩ := encLoad_cases w s <;> simp [e] at hout
  · obtain ⟨-, e⟩ | ⟨-, e⟩ := encEmit_cases s <;> simp [e] at hout
  · obtain ⟨-, e⟩ | ⟨-, e⟩ := encFull_cases s <;> simp [e] at hout

/-- In FAILED the DEC operations other than the resets leave the DEC side: DEC.ACCEPT is NotAccepted there (R88, R120). -/
theorem exec_sameDecSide_of_failed (hs : s.dec.state = .failed) (h : exec i s = .next t) (h1 : i ≠ .reset) (h2 : i ≠ .decReset) :
    s.SameDecSide t := by
  obtain hsame | ⟨hi, -⟩ | ⟨hi, -⟩ | ⟨-, -, b, hside, -⟩ := exec_decSide_cases h
  · exact hsame
  · exact absurd hi h1
  · exact absurd hi h2
  · rw [decAccept_eq_of_not_inReady b (.inr hs)] at hside
    exact ⟨hside.dec, hside.decErr, hside.decIn⟩

/-- In FAULT the ENC operations other than the resets leave the ENC side: they are NotAccepted there (R75, R120). -/
theorem exec_sameEncSide_of_fault (hs : s.enc.state = .fault) (h : exec i s = .next t) (h1 : i ≠ .reset) (h2 : i ≠ .encReset) :
    s.SameEncSide t := by
  have hdriven (hi : (∃ v, i = .encLoad v) ∨ i = .encEmit ∨ i = .encFull) : s.SameEncSide t := by
    rw [exec_enc_of_fault hs hi h]
    exact ⟨rfl, rfl, rfl⟩
  obtain hsame | ⟨hi, -⟩ | ⟨hi, -⟩ | ⟨v, hi, -⟩ | ⟨hi, -⟩ | ⟨hi, -⟩ := exec_encSide_cases h
  · exact hsame
  · exact absurd hi h1
  · exact absurd hi h2
  · exact hdriven (.inl ⟨v, hi⟩)
  · exact hdriven (.inr (.inl hi))
  · exact hdriven (.inr (.inr hi))

/-- RESET and DEC.RESET put DEC in NOT_STARTED, from any state (R121). -/
theorem exec_reset_dec_state (h : exec i s = .next t) (hi : i = .reset ∨ i = .decReset) : t.dec.state = .notStarted := by
  obtain rfl | rfl := hi
  · cases h
    rfl
  · obtain ⟨-, rfl⟩ := State.operate_eq_next.mp h
    rfl

/-- RESET and ENC.RESET put ENC in IDLE, from any state (R121). -/
theorem exec_reset_enc_state (h : exec i s = .next t) (hi : i = .reset ∨ i = .encReset) : t.enc.state = .idle := by
  obtain rfl | rfl := hi
  · cases h
    rfl
  · obtain ⟨-, rfl⟩ := State.operate_eq_next.mp h
    rfl

/-- Settles O28: what keeps each side in its terminal state, what its resets write, and where a value comes from. -/
theorem terminalStatesAreSticky : Obligations.TerminalStatesAreSticky := by
  intro i s t h
  refine ⟨fun hs h1 h2 => ?_, fun hs h1 h2 => ?_, fun _ => exec_reset_dec_state h, fun _ => exec_reset_enc_state h, fun hs hi => ?_,
    fun hs v hout => ?_⟩
  · have hside := exec_sameDecSide_of_failed hs h h1 h2
    exact ⟨hside.dec, hside.decIn⟩
  · have hside := exec_sameEncSide_of_fault hs h h1 h2
    exact ⟨hside.enc, hside.encOut⟩
  · subst hi
    obtain ⟨-, rfl⟩ := State.operate_eq_next.mp h
    rw [decValue_of_ne_ready (by simp [hs])]
  · simp [ready_of_value h hout] at hs

end Sys2Proof.Machine

/-! ## RESET from any state (R130), and what has a behaviour before the first RESET (R132) -/

namespace Sys2Proof.Machine

variable {p : PortIn} {s : State}

/-! ### RESET -/

theorem exec_reset (s : State) : exec .reset s = .next (blockReset s) := rfl

theorem blockReset_idempotent (s : State) : blockReset (blockReset s) = blockReset s := by
  simp only [blockReset_eq, if_true]

/-- Before the first RESET an edge with `rst` drops the read beside it (log entry 5): what is left is RESET alone. -/
theorem edgeOps_rst_before_reset (hr : s.resetDone = false) (hp : p.rst = true) : edgeOps p s = [.reset] := by
  simp [edgeOps, hr, hp]

/-- An edge with `rst` answers from any state, the power-up state included. -/
theorem clockEdge_rst_answers (s : State) (hp : p.rst = true) : ∃ t, clockEdge p s = .next t := by
  cases hr : s.resetDone
  · rw [clockEdge, edgeOps_rst_before_reset hr hp, runOps_singleton]
    exact ⟨_, exec_reset s⟩
  · exact runOps_answers (edgeOps p s) hr

/-- Settles O1: `blockReset` writes both units whatever they held, and an edge with `rst` ends in it. -/
theorem resetClearsBothUnits : Obligations.ResetClearsBothUnits := by
  refine fun s => ⟨blockReset s, exec_reset s, rfl, rfl, rfl, rfl, rfl, rfl, rfl, rfl, rfl, rfl, rfl, ?_, fun p hp => ?_⟩
  · rw [exec_reset, blockReset_idempotent]
  · obtain ⟨t, ht⟩ := clockEdge_rst_answers s hp
    obtain ⟨u, -, -, rfl⟩ := clockEdge_rst hp ht
    exact ⟨_, ht, rfl, rfl⟩

/-! ### Before the first RESET -/

/-- Every operation but RESET and the SGN functions is behind the guard of the first RESET (R132, R109). -/
theorem exec_before_reset {i : Instr} (hr : s.resetDone = false) (hreset : i ≠ .reset) (hsgn : ∀ x, i ≠ .sgnTou x ∧ i ≠ .sgnTos x) :
    exec i s = .fault .beforeFirstReset := by
  cases i
  case reset => exact absurd rfl hreset
  case sgnTou x => exact absurd rfl (hsgn x).1
  case sgnTos u => exact absurd rfl (hsgn u).2
  all_goals exact State.operate_before_reset hr

/-- Settles O6: RESET starts the streams, the SGN functions leave only an answer, and the guard stops every other operation. -/
theorem noBehaviourBeforeFirstReset : Obligations.NoBehaviourBeforeFirstReset := by
  refine fun i s hr => ⟨?_, ?_, exec_before_reset hr⟩
  · rintro rfl
    exact ⟨blockReset s, exec_reset s, by simp [blockReset_eq, hr]⟩
  · rintro ⟨x, rfl | rfl⟩
    · exact ⟨_, exec_sgnTou x s, hr⟩
    · exact ⟨_, exec_sgnTos x s, hr⟩

/-- A range inside the buffer passes the host's check, and DECODE is behind the guard of the first RESET (R94, R132). -/
theorem decodeBuf_before_reset (hr : s.resetDone = false) (before after : List Byte) {range : List Byte} (hne : range ≠ []) :
    decodeBuf (before ++ range ++ after) before.length range.length s = .fault .beforeFirstReset := by
  have hpos := List.length_pos_of_ne_nil hne
  rw [decodeBuf, if_neg (by simp only [List.length_append]; omega)]
  exact State.perform_before_reset hr

/-- The bookkeeping of a step does not lift the guard of the first RESET from a feed. -/
theorem step_of_feed_before_reset {span : List Byte} {later : List HostAction} (hr : s.resetDone = false)
    (hh : s.host = .feed span :: later) : step s = .fault .beforeFirstReset := by
  simp only [step, hh]
  exact State.operate_before_reset hr

/-- Settles O60: each pseudo-operation is behind the guard of `State.perform`, and a step of a feed behind that of
`State.operate`. -/
theorem pseudoOperationsNeedReset : Obligations.PseudoOperationsNeedReset := fun _ _ _ _ _ hr =>
  ⟨State.perform_before_reset hr, State.perform_before_reset hr, State.perform_before_reset hr, State.perform_before_reset hr,
    State.perform_before_reset hr, State.perform_before_reset hr, State.perform_before_reset hr,
    fun before _ after hne => decodeBuf_before_reset hr before after hne, fun _ hh => step_of_feed_before_reset hr hh⟩

end Sys2Proof.Machine
